-- ==== Sys2Proof/Word.lean ====
section
/-! DEFINITION. The two data shapes everything else is made of: the byte and the line (`00_scope.md` R5). -/

namespace Sys2Proof

/-- One 8-bit value: a payload byte, a register value, a register address, one ASCII character. -/
abbrev Byte := BitVec 8

/-- "an ASCII line is a finite list of bytes" (R5), without its terminator (R70). -/
abbrev Line := List Byte

/-- `'c'` of R5: the byte of the ASCII character c. -/
def ascii (c : Char) : Byte := BitVec.ofNat 8 c.toNat

end Sys2Proof
end

