-- ==== Sys2Proof/Syntax.lean ====
section
/-! DEFINITION. The operand records of the requests (`10_state.md` R26 to R30, `30_encoding.md` R60, R61) and the
instructions: one constructor for each row of spec/opcode_table.json, eight operations, the illegal opcodes and the
seventeen line kinds. -/

namespace Sys2Proof

/-- A raw frame (R26), the operand of FRAME_MAKE and FRAME_ENCODE: no invariant holds of it. -/
structure RawFrame where
  id   : BitVec 32
  ext  : Bool
  rtr  : Bool
  dlc  : BitVec 8
  data : List Byte
deriving DecidableEq, Repr, Inhabited

/-- The layout an id pattern names (R27). -/
inductive Layout where
  | std
  | ext
deriving DecidableEq, Repr, Inhabited

/-- An id pattern (R27), from which a mask or a filter value is built. -/
structure IdPattern where
  layout : Layout
  id     : BitVec 32
  d0     : Byte
  d1     : Byte
deriving DecidableEq, Repr, Inhabited

/-- A filter chain (R28): one mask and its filter values in order, of any number. -/
structure FilterChain where
  mask    : IdPattern
  filters : List IdPattern
deriving DecidableEq, Repr, Inhabited

/-- A register write (R30): one `W` line, one byte to one address of the target register space. -/
structure RegWrite where
  addr  : Byte
  value : Byte
deriving DecidableEq, Repr, Inhabited

/-- The operand record of a request (R60, R61), typed and not packed into bits; `none` is the empty record an illegal
opcode may come with (`95_test_vectors.md` P2, step 4). -/
inductive Operands where
  | none
  | rawFrame (r : RawFrame)
  | line     (l : Line)
  | baud     (b : BitVec 32)
  | pattern  (p : IdPattern)
  | chains   (cs : List FilterChain)
  | regWrite (w : RegWrite)
deriving DecidableEq, Repr, Inhabited

/-- A request (R60): "the pair `(opcode, operands)`". It is what the decoder reads. -/
structure Request where
  opcode   : Byte
  operands : Operands
deriving DecidableEq, Repr, Inhabited

/-- The instructions, one constructor for each row of spec/opcode_table.json.

The eight operations and `illegal` are the request rows (R61, R62). The other seventeen are the wire-line rows (R72 to
R75, R77 to R79, R81 to R89): a line is presented to the block as the operand of a FRAME_DECODE request, and its first byte
selects its kind (R70, R80). `rest` is the line after that first byte. `frameDecode` itself is the operation of R109 on
any line; the decoder gives it for the lines whose first byte is no kind's (the empty line among them), and the kind's own
constructor for the others (log entry 3). -/
inductive Instr where
  | frameMake         (r : RawFrame)
  | frameEncode       (r : RawFrame)
  | frameDecode       (l : Line)
  | baudCompute       (baud : BitVec 32)
  | maskEncode        (p : IdPattern)
  | filterValueEncode (p : IdPattern)
  | filterProgram     (chains : List FilterChain)
  | regWriteFormat    (w : RegWrite)
  | illegal           (opcode : Byte) (operands : Operands)
  | lineStdData       (rest : Line)
  | lineStdRemote     (rest : Line)
  | lineExtData       (rest : Line)
  | lineExtRemote     (rest : Line)
  | linePreset        (rest : Line)
  | lineTiming        (rest : Line)
  | lineRegWrite      (rest : Line)
  | lineClose         (rest : Line)
  | lineOpenActive    (rest : Line)
  | lineOpenListen    (rest : Line)
  | lineOpenLoopback  (rest : Line)
  | lineFirmware      (rest : Line)
  | lineHardware      (rest : Line)
  | lineSerial        (rest : Line)
  | lineAckLower      (rest : Line)
  | lineAckUpper      (rest : Line)
  | byteBell          (rest : Line)
deriving DecidableEq, Repr, Inhabited

end Sys2Proof
end

