-- ==== Sys2Proof/WellFormed.lean ====
section
/-! DEFINITION. Which instructions are well formed. Every operand value is (`30_encoding.md` R63: "The block never
rejects an operand for its width"); what is checked is that an instruction is the one its own words stand for. -/

namespace Sys2Proof

/-- The unassigned opcodes as R62 lists them: 0x00, 0x04 to 0x0F, 0x11 to 0x1F, 0x24 to 0xFF. -/
def unassignedOpcode (op : Byte) : Bool :=
  op.toNat == 0 || (0x04 ≤ op.toNat && op.toNat ≤ 0x0F) || (0x11 ≤ op.toNat && op.toNat ≤ 0x1F) || 0x24 ≤ op.toNat

/-- The first bytes of the line kinds (R72 to R75, R77 to R79, R81 to R89). -/
def lineFirstBytes : List Byte :=
  [ascii 't', ascii 'r', ascii 'T', ascii 'R', ascii 'S', ascii 's', ascii 'W', ascii 'C', ascii 'O', ascii 'L',
    ascii 'l', ascii 'v', ascii 'V', ascii 'N', ascii 'z', ascii 'Z', 0x07#8]

/-- A line no kind claims: it is empty, or its first byte is none of the kinds'. -/
def unclassifiedLine : Line → Bool
  | [] => true
  | b :: _ => !lineFirstBytes.contains b

/-- The well-formed instructions: an `illegal` holds an opcode outside the map of R61, and a `frameDecode` that is an
instruction of its own holds a line of no kind (log entry 3). Every other instruction is well formed at every operand. -/
def Instr.wf : Instr → Bool
  | .illegal op _ => unassignedOpcode op
  | .frameDecode l => unclassifiedLine l
  | .frameMake _ | .frameEncode _ | .baudCompute _ | .maskEncode _ | .filterValueEncode _ | .filterProgram _
  | .regWriteFormat _ | .lineStdData _ | .lineStdRemote _ | .lineExtData _ | .lineExtRemote _ | .linePreset _
  | .lineTiming _ | .lineRegWrite _ | .lineClose _ | .lineOpenActive _ | .lineOpenListen _ | .lineOpenLoopback _
  | .lineFirmware _ | .lineHardware _ | .lineSerial _ | .lineAckLower _ | .lineAckUpper _ | .byteBell _ => true

end Sys2Proof
end

