-- ==== Sys2Proof/Decode.lean ====
section
/-! DEFINITION. The decoder from a request (`30_encoding.md` R60 to R62, R80) to an instruction, total, and the encoder
back, each written from the opcode map of R61 and the line kinds of R70 to R89. -/

namespace Sys2Proof

/-- Why a request is no instruction: its operand record is not the type its opcode selects (R22, R60), which the request
register's typing excludes. -/
inductive DecodeError where
  | operandRecordMismatch (opcode : Byte)
deriving DecidableEq, Repr

/-- The kind of a line presented to FRAME_DECODE: "The first byte of a line selects its kind, case-significantly" (R70);
a line of no kind, the empty one among them, stays with FRAME_DECODE itself. -/
def decodeLine : Line → Instr
  | [] => .frameDecode []
  | b :: rest =>
    if b = ascii 't' then .lineStdData rest
    else if b = ascii 'r' then .lineStdRemote rest
    else if b = ascii 'T' then .lineExtData rest
    else if b = ascii 'R' then .lineExtRemote rest
    else if b = ascii 'S' then .linePreset rest
    else if b = ascii 's' then .lineTiming rest
    else if b = ascii 'W' then .lineRegWrite rest
    else if b = ascii 'C' then .lineClose rest
    else if b = ascii 'O' then .lineOpenActive rest
    else if b = ascii 'L' then .lineOpenListen rest
    else if b = ascii 'l' then .lineOpenLoopback rest
    else if b = ascii 'v' then .lineFirmware rest
    else if b = ascii 'V' then .lineHardware rest
    else if b = ascii 'N' then .lineSerial rest
    else if b = ascii 'z' then .lineAckLower rest
    else if b = ascii 'Z' then .lineAckUpper rest
    else if b = 0x07#8 then .byteBell rest
    else .frameDecode (b :: rest)

/-- The decoder, by the opcode map of R61; every other opcode is illegal whatever its operands (R62). -/
def decode (q : Request) : Except DecodeError Instr :=
  if q.opcode = 0x01#8 then
    match q.operands with
    | .rawFrame r => .ok (.frameMake r)
    | _ => .error (.operandRecordMismatch q.opcode)
  else if q.opcode = 0x02#8 then
    match q.operands with
    | .rawFrame r => .ok (.frameEncode r)
    | _ => .error (.operandRecordMismatch q.opcode)
  else if q.opcode = 0x03#8 then
    match q.operands with
    | .line l => .ok (decodeLine l)
    | _ => .error (.operandRecordMismatch q.opcode)
  else if q.opcode = 0x10#8 then
    match q.operands with
    | .baud b => .ok (.baudCompute b)
    | _ => .error (.operandRecordMismatch q.opcode)
  else if q.opcode = 0x20#8 then
    match q.operands with
    | .pattern p => .ok (.maskEncode p)
    | _ => .error (.operandRecordMismatch q.opcode)
  else if q.opcode = 0x21#8 then
    match q.operands with
    | .pattern p => .ok (.filterValueEncode p)
    | _ => .error (.operandRecordMismatch q.opcode)
  else if q.opcode = 0x22#8 then
    match q.operands with
    | .chains cs => .ok (.filterProgram cs)
    | _ => .error (.operandRecordMismatch q.opcode)
  else if q.opcode = 0x23#8 then
    match q.operands with
    | .regWrite w => .ok (.regWriteFormat w)
    | _ => .error (.operandRecordMismatch q.opcode)
  else .ok (.illegal q.opcode q.operands)

/-- The request a host places for an instruction (R61; for a line, FRAME_DECODE with that line as its operand, R80). -/
def encode : Instr → Request
  | .frameMake r => ⟨0x01#8, .rawFrame r⟩
  | .frameEncode r => ⟨0x02#8, .rawFrame r⟩
  | .frameDecode l => ⟨0x03#8, .line l⟩
  | .baudCompute b => ⟨0x10#8, .baud b⟩
  | .maskEncode p => ⟨0x20#8, .pattern p⟩
  | .filterValueEncode p => ⟨0x21#8, .pattern p⟩
  | .filterProgram cs => ⟨0x22#8, .chains cs⟩
  | .regWriteFormat w => ⟨0x23#8, .regWrite w⟩
  | .illegal op o => ⟨op, o⟩
  | .lineStdData l => ⟨0x03#8, .line (ascii 't' :: l)⟩
  | .lineStdRemote l => ⟨0x03#8, .line (ascii 'r' :: l)⟩
  | .lineExtData l => ⟨0x03#8, .line (ascii 'T' :: l)⟩
  | .lineExtRemote l => ⟨0x03#8, .line (ascii 'R' :: l)⟩
  | .linePreset l => ⟨0x03#8, .line (ascii 'S' :: l)⟩
  | .lineTiming l => ⟨0x03#8, .line (ascii 's' :: l)⟩
  | .lineRegWrite l => ⟨0x03#8, .line (ascii 'W' :: l)⟩
  | .lineClose l => ⟨0x03#8, .line (ascii 'C' :: l)⟩
  | .lineOpenActive l => ⟨0x03#8, .line (ascii 'O' :: l)⟩
  | .lineOpenListen l => ⟨0x03#8, .line (ascii 'L' :: l)⟩
  | .lineOpenLoopback l => ⟨0x03#8, .line (ascii 'l' :: l)⟩
  | .lineFirmware l => ⟨0x03#8, .line (ascii 'v' :: l)⟩
  | .lineHardware l => ⟨0x03#8, .line (ascii 'V' :: l)⟩
  | .lineSerial l => ⟨0x03#8, .line (ascii 'N' :: l)⟩
  | .lineAckLower l => ⟨0x03#8, .line (ascii 'z' :: l)⟩
  | .lineAckUpper l => ⟨0x03#8, .line (ascii 'Z' :: l)⟩
  | .byteBell l => ⟨0x03#8, .line (0x07#8 :: l)⟩

/-- The operand record an opcode selects (R61), with every field zero and every list empty. -/
def zeroOperands (op : Byte) : Operands :=
  if op = 0x01#8 ∨ op = 0x02#8 then .rawFrame ⟨0, false, false, 0, []⟩
  else if op = 0x03#8 then .line []
  else if op = 0x10#8 then .baud 0
  else if op = 0x20#8 ∨ op = 0x21#8 then .pattern ⟨.std, 0, 0, 0⟩
  else if op = 0x22#8 then .chains []
  else if op = 0x23#8 then .regWrite ⟨0, 0⟩
  else .none

/-- The request that a word of spec/opcode_table.json stands for (log entry 4). The table numbers two things in one
byte: a request row's word is `REQ.opcode`, a wire-line row's word is `line[0]`. No value is both an assigned opcode and a
line kind's first byte, so a line kind's byte is read as the one-byte line presented to FRAME_DECODE, and every other byte
as an opcode with a zero operand record. -/
def tableRequest (w : Nat) : Request :=
  let b : Byte := BitVec.ofNat 8 w
  match decodeLine [b] with
  | .frameDecode _ => ⟨b, zeroOperands b⟩
  | _ => ⟨0x03#8, .line [b]⟩

/-- What the decoder reads from a word of the opcode table, of one byte in every row: nothing beyond that byte has a place
in a request, whose operands are typed records and no bits (R60). -/
def decodeTableWord (_nbits w : Nat) : Option Instr :=
  if w < 256 then (decode (tableRequest w)).toOption else none

end Sys2Proof
end

