-- ==== Sys2Proof/Config.lean ====
section
/-! DEFINITION. The configuration record `CFG` (`00_scope.md` R2) as a type, and the free values: what the spec leaves
open, as constants with no body. The record's values and its well-formedness stand in Machine/CfgTables.lean. -/

namespace Sys2Proof

/-- `CFG` (R2), every field at the width the rule gives. "A model takes `CFG` as an argument of its step relation": it is a
component of State (R21), and no operation writes it (R32). -/
structure Cfg where
  oscHz          : BitVec 32
  lineTerm       : Byte
  presetRates    : Vector (BitVec 32) 9
  presetChar     : Vector Byte 9
  xMin           : BitVec 5
  xMax           : BitVec 5
  xbrpMin        : BitVec 8
  xbrpMax        : BitVec 8
  cnf1Fixed      : Byte
  /-- A list, because R3 bounds its length by `X_MIN` and `X_MAX`: thirteen entries at the values of R2. -/
  cnfTable       : List (BitVec 16)
  exideBit       : Byte
  maskBase0      : Byte
  maskStride     : Byte
  filterBase     : Vector Byte 6
  /-- `SLOT_FILTERS[0]`. -/
  slotFilters0   : BitVec 3
  /-- `SLOT_FILTERS[1]`. -/
  slotFilters1   : BitVec 3
  maxChains      : BitVec 2
  singleChainMax : BitVec 3
  idStdMax       : BitVec 32
  idExtMax       : BitVec 32
  dlcMax         : BitVec 4
  stdIdDigits    : BitVec 4
  extIdDigits    : BitVec 4
deriving DecidableEq, Repr, Inhabited

/-- The target controller's three bit-timing registers (glossary "Bit timing registers", R47, R91), by the names R47
gives the three bytes of an `s` line. -/
structure Timing where
  cnf1 : Byte
  cnf2 : Byte
  cnf3 : Byte
deriving DecidableEq, Repr, Inhabited

/-- Free value: `a / 0` of the search, for a candidate x = 0. R3 admits `X_MIN = 0`, and no rule says what the quotient
is then. It is not reached at the values of R2. Log entry 8. -/
opaque Config.divByZero : Nat → Nat

/-- Free value: `hex(v, n)` for `v ≥ 16^n`, where R5 defines nothing. Reached only where `CFG` holds an identifier bound
too large for its digit count. Log entry 8. -/
opaque Config.hexBeyond : Nat → Nat → Line

/-- Free value: `FILTER_BASE[f]` for f above 5, reached only where the two `SLOT_FILTERS` add up to more than the table's
six entries. Log entry 8. -/
opaque Config.filterBaseBeyond : Nat → Byte

/-- Free value: `CNF_TABLE[k]` beyond the table's end. A configuration well formed by R3 never reaches it. Log entry 8. -/
opaque Config.cnfBeyond : Nat → BitVec 16

/-- Free value: the winner of a search over no candidate (`X_MIN > X_MAX`, which R3 excludes). Log entry 8. -/
opaque Config.noCandidate : Nat → Nat × Nat × Nat × Nat

/-- Free value: the two chains the slots take when three chains pass the check, which needs `MAX_CHAINS = 3`; R177 and
R178 place one chain and two. Log entry 8. -/
opaque Config.slotChainsBeyondTwo : List FilterChain → FilterChain × FilterChain

/-- Free value: what the target's timing registers hold after the preset line `S<digit>`. "whether the device's preset
timing matches the target's actual oscillator is the device's concern and not in the source" (R248). Log entry 12. -/
opaque Config.presetTiming : Byte → Timing

end Sys2Proof
end

