-- ==== Sys2Proof/Machine/CfgTables.lean ====
section
/-! DEFINITION. The values of `CFG` (`00_scope.md` R2), when a configuration is well formed (R3), and which of its fields the
source fixes (`92_eei_decisions.md` D45). -/

namespace Sys2Proof

/-- The configuration with the value R2 gives each parameter. Six of them the source does not give (`OSC_HZ`, `LINE_TERM`,
`PRESET_CHAR`, `CNF_TABLE`, `MASK_BASE0`, `FILTER_BASE`; D45): no statement rests on those six values unless it says so (log entry 2). -/
def Cfg.spec : Cfg where
  oscHz := 24000000#32
  lineTerm := 0x0D#8
  presetRates := #v[10000#32, 20000#32, 50000#32, 100000#32, 125000#32, 250000#32, 500000#32, 800000#32, 1000000#32]
  presetChar := #v[ascii '0', ascii '1', ascii '2', ascii '3', ascii '4', ascii '5', ascii '6', ascii '7', ascii '8']
  xMin := 11#5
  xMax := 23#5
  xbrpMin := 2#8
  xbrpMax := 128#8
  cnf1Fixed := 0xC0#8
  cnfTable := [0x9203#16, 0x9303#16, 0x9B03#16, 0x9B04#16, 0x9C04#16, 0xA404#16, 0xA405#16, 0xAC05#16, 0xAC06#16,
    0xAD06#16, 0xB506#16, 0xB507#16, 0xBD07#16]
  exideBit := 0x08#8
  maskBase0 := 0x20#8
  maskStride := 4#8
  filterBase := #v[0x00#8, 0x04#8, 0x08#8, 0x10#8, 0x14#8, 0x18#8]
  slotFilters0 := 2#3
  slotFilters1 := 4#3
  maxChains := 2#2
  singleChainMax := 4#3
  idStdMax := 0x7FF#32
  idExtMax := 0x1FFFFFFF#32
  dlcMax := 8#4
  stdIdDigits := 3#4
  extIdDigits := 8#4

/-- A well-formed configuration, clause by clause as R3 lists them. The sums are exact (R4). -/
def Cfg.wf (c : Cfg) : Bool :=
  decide (1 ≤ c.oscHz.toNat)
    && decide (c.xMin.toNat ≤ c.xMax.toNat)
    && c.cnfTable.length == c.xMax.toNat - c.xMin.toNat + 1
    && decide (2 ≤ c.xbrpMin.toNat) && decide (c.xbrpMin.toNat ≤ c.xbrpMax.toNat) && decide (c.xbrpMax.toNat ≤ 128)
    && c.xbrpMin.toNat % 2 == 0 && c.xbrpMax.toNat % 2 == 0
    && decide c.presetRates.toList.Nodup
    && decide (c.maskBase0.toNat + c.maskStride.toNat + 3 ≤ 0xFF)
    && c.filterBase.toList.all fun b => decide (b.toNat + 3 ≤ 0xFF)

/-- The fields the source gives a value (D45: all but `OSC_HZ`, `LINE_TERM`, `PRESET_CHAR`, `CNF_TABLE`, `MASK_BASE0` and
`FILTER_BASE`) hold that value. A statement that needs the sizes the source fixes (three and eight identifier digits, two
and four filters, candidates 11 to 23) assumes this and leaves the six others arbitrary. -/
def Cfg.sourceFixed (c : Cfg) : Prop :=
  c.presetRates = Cfg.spec.presetRates ∧ c.xMin = 11#5 ∧ c.xMax = 23#5 ∧ c.xbrpMin = 2#8 ∧ c.xbrpMax = 128#8 ∧
    c.cnf1Fixed = 0xC0#8 ∧ c.exideBit = 0x08#8 ∧ c.maskStride = 4#8 ∧ c.slotFilters0 = 2#3 ∧ c.slotFilters1 = 4#3 ∧
    c.maxChains = 2#2 ∧ c.singleChainMax = 4#3 ∧ c.idStdMax = 0x7FF#32 ∧ c.idExtMax = 0x1FFFFFFF#32 ∧ c.dlcMax = 8#4 ∧
    c.stdIdDigits = 3#4 ∧ c.extIdDigits = 8#4

/-- The terminator is a control byte (R70: "a single control byte") and the preset characters are printable (log
entry 19). -/
def Cfg.textual (c : Cfg) : Prop :=
  c.lineTerm.toNat < 0x20 ∧ ∀ i : Fin 9, 0x20 ≤ c.presetChar[i].toNat ∧ c.presetChar[i].toNat ≤ 0x7E

end Sys2Proof
end

