-- ==== Sys2Proof/Machine/State.lean ====
section
/-! DEFINITION. The state: the block's `CFG`, `REQ` and `RSP` (`10_state.md` R21 to R23), and beside them what the block's
lines act on and who places its requests, the host's moves, the wire and the target controller's registers (`20_memory.md`
R41, R52; `70_reset_and_hazards.md` R240 to R245). All of it is plain data. -/

namespace Sys2Proof.Machine

/-- The error statuses of R210, one for each row but OK. The source's other error kinds have no constructor (R211). -/
inductive Err where
  | invalidFrame
  | tooManyFilterChains
  | filterChainTooLong
  | notAFrame
  | badBaud
  | illegalOp
deriving DecidableEq, Repr

/-- A frame (R25). Its invariants are `Frame.legal` of Safety.lean, which every frame the block answers with meets. -/
structure Frame where
  id   : BitVec 32
  ext  : Bool
  rtr  : Bool
  dlc  : BitVec 4
  data : List Byte
deriving DecidableEq, Repr

/-- A register tuple (R29). -/
structure RegTuple where
  b0 : Byte
  b1 : Byte
  b2 : Byte
  b3 : Byte
deriving DecidableEq, Repr

/-- The CUSTOM record of a baud result (R31). -/
structure CustomTiming where
  xdesired : Nat
  x        : Nat
  xbrp     : Nat
  brp      : BitVec 6
  cnf1     : Byte
  cnf23    : BitVec 16
  diff     : Nat
  line     : Line
deriving DecidableEq, Repr

/-- A baud result (R31). -/
inductive BaudResult where
  | preset (index : Fin 9) (line : Line)
  | custom (c : CustomTiming)
deriving DecidableEq, Repr

/-- The result record of each opcode (R61). -/
inductive Result where
  | frame   (f : Frame)
  | line    (l : Line)
  | baud    (b : BaudResult)
  | tuple   (t : RegTuple)
  | program (writes : List RegWrite) (lines : List Line)
deriving DecidableEq, Repr

/-- The request register (R22). -/
structure Req where
  valid    : Bool
  opcode   : Byte
  operands : Operands
deriving DecidableEq, Repr

/-- The response register (R23). `result` is absent where the spec says it is: it is "present only when
`RSP.status = OK`". -/
structure Rsp where
  valid  : Bool
  status : Byte
  result : Option Result
deriving DecidableEq, Repr

/-- A move of the outside world, in the order it makes them: the host writes REQ (R22), waits for its response (R37),
sends the lines of the response it holds (R244), or the block is reset (R240). -/
inductive HostMove where
  | request (opcode : Byte) (operands : Operands)
  | await
  | send
  | reset
deriving DecidableEq, Repr

/-- The target register space (R41): (address, byte) pairs in one canonical form (`Memory.wf`). A register with no entry
holds the value it has at reset (`Memory.unlisted`, log entry 11). -/
abbrev Memory := List Host.Cell

/-- The machine's state. `cfg`, `req` and `rsp` are the block's, and all the block has (R21). `host` (the moves to come),
`wire` (the bytes sent and not yet performed, terminators included), `target` and `timing` (the target controller's
registers) belong to the outside; no operation of the block reads or writes them (log entry 7). -/
structure State where
  cfg    : Cfg
  req    : Req
  rsp    : Rsp
  host   : List HostMove
  wire   : List Byte
  target : Memory
  timing : Timing
deriving DecidableEq, Repr

/-- Why the machine stops with no step. -/
inductive Fault where
  /-- Raised by `step`: "When `REQ.valid = 0` the block has no step" (R24), no move of the host is left and no complete line
  is on the wire. A stuck state; safe. -/
  | noRequest
  /-- Raised by `step` where a request stands and `CFG` is not well formed (R3): "Before the first request, `CFG` must be
  well formed" (R242; log entry 10). Safe. -/
  | configNotWellFormed
deriving DecidableEq, Repr

/-- Why something has no meaning in the model. -/
inductive Refusal where
  /-- An instruction with no meaning yet, raised by `exec` alone. No arm raises it. Safe. -/
  | notModelled (mnemonic : String)
  /-- Raised by `step`: REQ holds an operand record of another type than its opcode selects, a request the typed register of
  R22 and R60 cannot hold (log entry 14). Safe. -/
  | operandRecordMismatch (opcode : Byte)
  /-- Raised by the target's move: a line that begins as a register, timing or preset line and is not one the formats of R77
  to R79 give. What the device does with it is not in the spec, and the block never produces it (log entry 15). Safe. -/
  | malformedDeviceLine
deriving DecidableEq, Repr

/-- The state after reset (R36, R240): `CFG` loaded, `REQ.valid = 0`, `RSP.valid = 0`. The other fields of REQ and RSP are
unspecified there and hold zeros here (log entry 1); the outside has done nothing, and every register of the target holds a
zero (log entries 1 and 11). -/
def State.reset : State where
  cfg := Cfg.spec
  req := { valid := false, opcode := 0x00#8, operands := .none }
  rsp := { valid := false, status := 0x00#8, result := none }
  host := []
  wire := []
  target := []
  timing := { cnf1 := 0x00#8, cnf2 := 0x00#8, cnf3 := 0x00#8 }

end Sys2Proof.Machine
end

