-- ==== Sys2Proof/Machine/Flags.lean ====
section
/-! DEFINITION. The block's one condition output, `RSP.status` (`10_state.md` R33), and its codes (`60_exceptions.md` R210). -/

namespace Sys2Proof.Machine

/-- The status OK (R210). -/
def statusOk : Byte := 0x00#8

/-- The status code of each error (R210). -/
def Err.code : Err → Byte
  | .invalidFrame => 0x01#8
  | .tooManyFilterChains => 0x02#8
  | .filterChainTooLong => 0x03#8
  | .notAFrame => 0x04#8
  | .badBaud => 0x05#8
  | .illegalOp => 0x06#8

end Sys2Proof.Machine
end

