-- ==== Sys2Proof/Machine/Text.lean ====
section
/-! DEFINITION. Hex numerals: the writer `hex(v, n)`, the digit reader `hexval` (`00_scope.md` R5) and the field reader
`parseField` (`40_frame_codec.md` R107). -/

namespace Sys2Proof.Machine

/-- The lowercase digit of a value 0 to 15 (R5). -/
def hexDigit (d : Nat) : Byte :=
  if d < 10 then BitVec.ofNat 8 (0x30 + d) else BitVec.ofNat 8 (0x61 + (d - 10))

/-- The n digits of v in base 16, most significant first (R5, R45). -/
def hexDigits (v : Nat) : Nat → Line
  | 0 => []
  | n + 1 => hexDigits (v / 16) n ++ [hexDigit (v % 16)]

/-- `hex(v, n)` (R5), which is defined for `v < 16^n`; beyond that it is a free value (log entry 8). -/
def hex (v n : Nat) : Line :=
  if v < 16 ^ n then hexDigits v n else Config.hexBeyond v n

/-- `hexval(c)` (R5): the value of a digit `0`-`9`, `a`-`f` or `A`-`F`; no other byte has one. -/
def hexval (c : Byte) : Option Nat :=
  let n := c.toNat
  if 0x30 ≤ n ∧ n ≤ 0x39 then some (n - 0x30)
  else if 0x61 ≤ n ∧ n ≤ 0x66 then some (n - 0x61 + 10)
  else if 0x41 ≤ n ∧ n ≤ 0x46 then some (n - 0x41 + 10)
  else none

/-- The value of a numeral read from its first digit on, `acc` being what stands before it (R76); none if a byte of it is
no hex digit. -/
def numeral (acc : Nat) : Line → Option Nat
  | [] => some acc
  | c :: cs =>
    match hexval c with
    | some d => numeral (acc * 16 + d) cs
    | none => none

/-- `parseField(s, off, n)` (R107): 0 for a field missing, cut short or malformed, and else its value. -/
def parseField (s : Line) (off n : Nat) : Nat :=
  if s.length < off + n then 0 else (numeral 0 ((s.drop off).take n)).getD 0

end Sys2Proof.Machine
end

