-- ==== Sys2Proof/Machine/Operands.lean ====
section
/-! DEFINITION. The operand forms several operations share: the check and the normalisation of a frame (`40_frame_codec.md`
R100, R101), the letter of a frame line (R104, R108), the register tuple of an id pattern (`42_filter_encoder.md` R170, R171)
and the register-write line (R184). -/

namespace Sys2Proof.Machine

/-- `normFrame(id, ext)` (R100): the identifier saturates at `ID_EXT_MAX` and the flag is forced on above `ID_STD_MAX`. The
identifier comes as an exact number (R4). -/
def normFrame (c : Cfg) (id : Nat) (ext : Bool) : BitVec 32 × Bool :=
  let id' := min id c.idExtMax.toNat
  (BitVec.ofNat 32 id', ext || decide (c.idStdMax.toNat < id'))

/-- The four conditions of R101. -/
def accepted (c : Cfg) (r : RawFrame) : Bool :=
  decide (r.data.length ≤ c.dlcMax.toNat) && decide (r.dlc.toNat ≤ c.dlcMax.toNat)
    && (!r.rtr || r.data.isEmpty) && (r.rtr || r.dlc.toNat == r.data.length)

/-- The identifier digits of a frame line: `EXT_ID_DIGITS` or `STD_ID_DIGITS` (R105; R108 and R109 read as many as R105
writes; log entry 9). -/
def idDigits (c : Cfg) (ext : Bool) : Nat :=
  if ext then c.extIdDigits.toNat else c.stdIdDigits.toNat

/-- The letter of a frame line (R104). -/
def frameLetter (ext rtr : Bool) : Byte :=
  match ext, rtr with
  | false, false => ascii 't'
  | false, true => ascii 'r'
  | true, false => ascii 'T'
  | true, true => ascii 'R'

/-- The flags `(ext, rtr)` of a frame line's first byte (R108); none for any other byte (R114). -/
def letterFlags (b : Byte) : Option (Bool × Bool) :=
  if b = ascii 't' then some (false, false)
  else if b = ascii 'r' then some (false, true)
  else if b = ascii 'T' then some (true, false)
  else if b = ascii 'R' then some (true, true)
  else none

/-- `regsStd(p, isValue)` (R170): the same for a mask and a filter value. -/
def regsStd (p : IdPattern) : RegTuple where
  b0 := ((p.id >>> 3) &&& 0xFF#32).setWidth 8
  b1 := ((p.id &&& 0x7#32) <<< 5).setWidth 8
  b2 := p.d0
  b3 := p.d1

/-- `regsExt(p, isValue)` (R171): a filter value has `EXIDE_BIT` set in b1. -/
def regsExt (c : Cfg) (p : IdPattern) (isValue : Bool) : RegTuple where
  b0 := ((p.id >>> 21) &&& 0xFF#32).setWidth 8
  b1 :=
    let b1 : Byte := (((p.id >>> 16) &&& 0x3#32) ||| ((p.id >>> 13) &&& 0xE0#32)).setWidth 8
    if isValue then b1 ||| c.exideBit else b1
  b2 := ((p.id >>> 8) &&& 0xFF#32).setWidth 8
  b3 := (p.id &&& 0xFF#32).setWidth 8

/-- `regs(p, isValue)` (R171): by the layout the pattern names. -/
def regs (c : Cfg) (p : IdPattern) (isValue : Bool) : RegTuple :=
  match p.layout with
  | .std => regsStd p
  | .ext => regsExt c p isValue

/-- The register-write line (R79, R184): `'W' ++ hex(addr, 2) ++ hex(value, 2)`. -/
def regWriteLine (w : RegWrite) : Line :=
  ascii 'W' :: (hex w.addr.toNat 2 ++ hex w.value.toNat 2)

/-- The custom timing line (R78, R150): `'s' ++ hex(cnf1, 2) ++ hex(cnf23, 4)`. -/
def timingLine (cnf1 : Byte) (cnf23 : BitVec 16) : Line :=
  ascii 's' :: (hex cnf1.toNat 2 ++ hex cnf23.toNat 4)

end Sys2Proof.Machine
end

