-- ==== Sys2Proof/Machine/Ops.lean ====
section
/-! DEFINITION. The named operations over the state: answering a request (`10_state.md` R24), raising an error
(`60_exceptions.md` R212, the block's only form of exception: R216 gives no trap entry and R217 no return from one), the
target register space (`20_memory.md` R41, R44) and reset (`70_reset_and_hazards.md` R240). -/

namespace Sys2Proof.Machine

/-- What a step of the machine answers. -/
abbrev Outcome := Host.Outcome State Fault Refusal

/-- The request the block reads (R24): `REQ.opcode` and `REQ.operands`. -/
def State.fetch (s : State) : Request := ⟨s.req.opcode, s.req.operands⟩

/-- R24: "writes `RSP <- (valid = 1, status, result)` and `REQ.valid <- 0`, all in one atomic transition". -/
def State.respond (s : State) (status : Byte) (result : Option Result) : State :=
  { s with
    req := { s.req with valid := false }
    rsp := { valid := true, status := status, result := result } }

/-- Raising an error (R212): "writes `RSP <- (valid = 1, status = E, result = none)` and nothing else". -/
def State.raise (s : State) (e : Err) : State := s.respond e.code none

/-- The end of every operation: its result with the status OK, or its error raised (R6, R7). -/
def State.complete (s : State) : Except Err Result → Outcome
  | .ok r => .next (s.respond statusOk (some r))
  | .error e => .next (s.raise e)

/-- What a register that `target` does not list holds: the value every register has at reset (R41; log entry 11). -/
def Memory.unlisted : Byte := 0x00#8

/-- The canonical form of the register space: addresses of eight bits (R41), strictly rising, and no entry that holds what
an unlisted register does. -/
def Memory.wf : Memory → Bool
  | [] => true
  | [(a, v)] => decide (a < 256) && decide (v ≠ unlisted)
  | (a, v) :: (b, w) :: rest => decide (a < b) && decide (v ≠ unlisted) && Memory.wf ((b, w) :: rest)

/-- The value of the register at an address (R41: "Each address holds one 8-bit register"). -/
def Memory.read : Memory → Nat → Byte
  | [], _ => unlisted
  | (b, v) :: rest, a => if a = b then v else Memory.read rest a

/-- A register's entry before the entries above it: none where it holds what an unlisted register does. -/
def Memory.entry (a : Nat) (v : Byte) (rest : Memory) : Memory := if v = unlisted then rest else (a, v) :: rest

/-- `MemWrite(addr, 1, v)` (R6): one byte to one register (R50). -/
def Memory.write : Memory → Nat → Byte → Memory
  | [], a, v => entry a v []
  | (b, w) :: rest, a, v =>
    if a < b then entry a v ((b, w) :: rest)
    else if a = b then entry a v rest
    else (b, w) :: Memory.write rest a v

/-- The value of the target's register at an address of eight bits (R41). -/
def State.readTarget (s : State) (a : Byte) : Byte := Memory.read s.target a.toNat

/-- The target performing one register write (R41). -/
def State.writeTarget (s : State) (w : RegWrite) : State :=
  { s with target := Memory.write s.target w.addr.toNat w.value }

/-- Reset of the block (R240): REQ and RSP as after reset, so a request not yet performed is lost. `CFG` is "the same value at
every step of a run" (R32, log entry 5); the target controller is not touched (R241), nor is the wire. -/
def State.resetBlock (s : State) : State := { s with req := State.reset.req, rsp := State.reset.rsp }

end Sys2Proof.Machine
end

