-- ==== Sys2Proof/Machine/BitTiming.lean ====
section
/-! DEFINITION. The bit-timing calculator (`41_bit_timing.md`): BAUD_COMPUTE. All arithmetic is exact, on naturals and
integers (R4). -/

namespace Sys2Proof.Machine

/-- `a / b` of R4, floor division; a division by zero is a free value (log entry 8). -/
def floorDiv (a b : Nat) : Nat := if b = 0 then Config.divByZero a else a / b

/-- Rounding to the nearest multiple of 20, a remainder of exactly 10 upwards (R144, `90_conflicts.md` C3). -/
def roundTo20 (v : Nat) : Nat := if 10 ≤ v % 20 then v - v % 20 + 20 else v - v % 20

/-- One candidate of the search (R140): the bit time, the divisor, the register field and the distance. -/
structure Candidate where
  x    : Nat
  xbrp : Nat
  brp  : Nat
  diff : Nat
deriving DecidableEq, Repr

/-- The divisor of a candidate bit time x: rounded (R144) and clamped (R145). -/
def candidateXbrp (c : Cfg) (xdesired x : Nat) : Nat :=
  max c.xbrpMin.toNat (min c.xbrpMax.toNat (roundTo20 (floorDiv (xdesired * 10) x) / 10))

/-- The candidate of a bit time x (R144 to R147). -/
def candidate (c : Cfg) (xdesired x : Nat) : Candidate :=
  let xbrp := candidateXbrp c xdesired x
  { x := x, xbrp := xbrp, brp := xbrp / 2 - 1, diff := ((xdesired : Int) - (x * xbrp : Nat)).natAbs }

/-- R148: "The candidate replaces the best so far only when its diff is strictly smaller". -/
def keepBetter (best : Option Candidate) (k : Candidate) : Option Candidate :=
  match best with
  | none => some k
  | some b => if k.diff < b.diff then some k else some b

/-- The bit times tried, `X_MIN` to `X_MAX` upwards (R144). -/
def candidateTimes (c : Cfg) : List Nat := List.range' c.xMin.toNat (c.xMax.toNat + 1 - c.xMin.toNat)

/-- The search of R140. Only a configuration R3 excludes has no candidate; the winner is a free value then. -/
def search (c : Cfg) (xdesired : Nat) : Candidate :=
  match (candidateTimes c).foldl (fun best x => keepBetter best (candidate c xdesired x)) none with
  | some k => k
  | none => let f := Config.noCandidate xdesired; ⟨f.1, f.2.1, f.2.2.1, f.2.2.2⟩

/-- `CNF_TABLE[x - X_MIN]` (R91, R149). -/
def cnfEntry (c : Cfg) (x : Nat) : BitVec 16 :=
  match c.cnfTable[x - c.xMin.toNat]? with
  | some v => v
  | none => Config.cnfBeyond x

/-- The CUSTOM result of a requested rate (R143 to R150). -/
def customTiming (c : Cfg) (baud : BitVec 32) : CustomTiming :=
  let xdesired := c.oscHz.toNat / baud.toNat
  let k := search c xdesired
  let cnf1 := BitVec.ofNat 8 k.brp ||| c.cnf1Fixed
  let cnf23 := cnfEntry c k.x
  { xdesired := xdesired, x := k.x, xbrp := k.xbrp, brp := BitVec.ofNat 6 k.brp, cnf1 := cnf1, cnf23 := cnf23
    diff := k.diff, line := timingLine cnf1 cnf23 }

/-- The preset a rate is equal to, if any (R142); the first of them, as the pseudocode of R140 looks. -/
def presetIndex (c : Cfg) (baud : BitVec 32) : Option (Fin 9) :=
  (List.finRange 9).find? fun i => c.presetRates[i] == baud

/-- The preset line (R77): `'S' ++ PRESET_CHAR[i]`. -/
def presetLine (c : Cfg) (i : Fin 9) : Line := [ascii 'S', c.presetChar[i]]

/-- BAUD_COMPUTE (R140): a rate of zero is refused (R141), a preset rate answers its line (R142), any other is searched. -/
def baudCompute (c : Cfg) (baud : BitVec 32) : Except Err Result :=
  if baud = 0#32 then .error .badBaud
  else
    match presetIndex c baud with
    | some i => .ok (.baud (.preset i (presetLine c i)))
    | none => .ok (.baud (.custom (customTiming c baud)))

/-- BAUD_COMPUTE, opcode 0x10 (R140). -/
def execBaudCompute (baud : BitVec 32) (s : State) : Outcome := s.complete (baudCompute s.cfg baud)

end Sys2Proof.Machine
end

