-- ==== Sys2Proof/Machine/FilterEncoder.lean ====
section
/-! DEFINITION. The filter register encoder (`42_filter_encoder.md`): MASK_ENCODE, FILTER_VALUE_ENCODE, FILTER_PROGRAM and
REG_WRITE_FORMAT. -/

namespace Sys2Proof.Machine

/-- Which chain goes to which slot: none where no chain is given (R175), a single chain to both slots (R177), of two chains
the one with fewer filters to slot 0 (R178). Every bound is checked here, before any write exists (R174, R176, R179,
R185), the number of chains first (R214). -/
def placeChains (c : Cfg) (chains : List FilterChain) : Except Err (Option (FilterChain × FilterChain)) :=
  if c.maxChains.toNat < chains.length then .error .tooManyFilterChains
  else
    match chains with
    | [] => .ok none
    | [a] => if c.singleChainMax.toNat < a.filters.length then .error .filterChainTooLong else .ok (some (a, a))
    | [a, b] =>
      let p := if b.filters.length < a.filters.length then (b, a) else (a, b)
      if c.slotFilters0.toNat < p.1.filters.length ∨ c.slotFilters1.toNat < p.2.filters.length then
        .error .filterChainTooLong
      else .ok (some p)
    | cs => .ok (some (Config.slotChainsBeyondTwo cs))

/-- The four writes of a register tuple: byte k to base + k, byte 0 first (R44). -/
def tupleWrites (base : Nat) (t : RegTuple) : List RegWrite :=
  [⟨BitVec.ofNat 8 base, t.b0⟩, ⟨BitVec.ofNat 8 (base + 1), t.b1⟩, ⟨BitVec.ofNat 8 (base + 2), t.b2⟩,
    ⟨BitVec.ofNat 8 (base + 3), t.b3⟩]

/-- The tuple of four zero bytes (R175, R180). -/
def zeroTuple : RegTuple := ⟨0#8, 0#8, 0#8, 0#8⟩

/-- The address of slot s's mask register (R181): `MASK_BASE0 + MASK_STRIDE × s`. -/
def maskBase (c : Cfg) (slot : Nat) : Nat := c.maskBase0.toNat + c.maskStride.toNat * slot

/-- The address of filter register f (R181); beyond the table it is a free value (log entry 8). -/
def filterAddr (c : Cfg) (f : Nat) : Nat :=
  match c.filterBase[f]? with
  | some b => b.toNat
  | none => (Config.filterBaseBeyond f).toNat

/-- The filter register i of a slot: the chain's filter i as a filter value, or four zero bytes where it has none (R180). -/
def filterTuple (c : Cfg) (ch : FilterChain) (i : Nat) : RegTuple :=
  match ch.filters[i]? with
  | some p => regs c p true
  | none => zeroTuple

/-- A slot's writes (R180, R181): its mask, then its `count` filter registers, which are the registers from `first` on. -/
def slotWrites (c : Cfg) (slot first count : Nat) (ch : FilterChain) : List RegWrite :=
  tupleWrites (maskBase c slot) (regs c ch.mask false)
    ++ (List.range count).flatMap fun i => tupleWrites (filterAddr c (first + i)) (filterTuple c ch i)

/-- The write list of FILTER_PROGRAM (R183): both masks zero where no chain is placed (R175), else slot 0 and then slot 1. -/
def programWrites (c : Cfg) : Option (FilterChain × FilterChain) → List RegWrite
  | none => tupleWrites (maskBase c 0) zeroTuple ++ tupleWrites (maskBase c 1) zeroTuple
  | some p => slotWrites c 0 0 c.slotFilters0.toNat p.1
      ++ slotWrites c 1 c.slotFilters0.toNat c.slotFilters1.toNat p.2

/-- FILTER_PROGRAM (R183): all or nothing (R185), one `W` line for each write. -/
def filterProgram (c : Cfg) (chains : List FilterChain) : Except Err Result :=
  match placeChains c chains with
  | .error e => .error e
  | .ok p => .ok (.program (programWrites c p) ((programWrites c p).map regWriteLine))

/-- MASK_ENCODE, opcode 0x20 (R172). -/
def execMaskEncode (p : IdPattern) (s : State) : Outcome := s.complete (.ok (.tuple (regs s.cfg p false)))

/-- FILTER_VALUE_ENCODE, opcode 0x21 (R173). -/
def execFilterValueEncode (p : IdPattern) (s : State) : Outcome := s.complete (.ok (.tuple (regs s.cfg p true)))

/-- FILTER_PROGRAM, opcode 0x22 (R183). -/
def execFilterProgram (chains : List FilterChain) (s : State) : Outcome := s.complete (filterProgram s.cfg chains)

/-- REG_WRITE_FORMAT, opcode 0x23 (R184). -/
def execRegWriteFormat (w : RegWrite) (s : State) : Outcome := s.complete (.ok (.line (regWriteLine w)))

end Sys2Proof.Machine
end

