-- ==== Sys2Proof/Machine/FrameCodec.lean ====
section
/-! DEFINITION. The frame codec (`40_frame_codec.md`): FRAME_MAKE, FRAME_ENCODE and FRAME_DECODE. -/

namespace Sys2Proof.Machine

/-- FRAME_MAKE (R102). The length field narrows from 8 bits to 4, which an accepted raw frame's fits (R101). -/
def frameMake (c : Cfg) (r : RawFrame) : Except Err Result :=
  if accepted c r then
    let n := normFrame c r.id.toNat r.ext
    .ok (.frame { id := n.1, ext := n.2, rtr := r.rtr, dlc := r.dlc.setWidth 4, data := r.data })
  else .error .invalidFrame

/-- The line of an accepted raw frame (R105). -/
def frameLine (c : Cfg) (r : RawFrame) : Line :=
  let n := normFrame c r.id.toNat r.ext
  frameLetter n.2 r.rtr :: (hex n.1.toNat (idDigits c n.2) ++ hex r.dlc.toNat 1
    ++ if r.rtr then [] else r.data.flatMap fun b => hex b.toNat 2)

/-- FRAME_ENCODE (R105). -/
def frameEncode (c : Cfg) (r : RawFrame) : Except Err Result :=
  if accepted c r then .ok (.line (frameLine c r)) else .error .invalidFrame

/-- The frame a line with the flags `(ext, rtr)` holds (R109 after its first line): the fields at their fixed offsets, the
length capped (R110), the payload of exactly that many bytes (R111), the identifier normalised (R113). -/
def decodeFrame (c : Cfg) (s : Line) (ext rtr : Bool) : Frame :=
  let n := idDigits c ext
  let dlc := min (parseField s (1 + n) 1) c.dlcMax.toNat
  let id := normFrame c (parseField s 1 n) ext
  { id := id.1, ext := id.2, rtr := rtr, dlc := BitVec.ofNat 4 dlc
    data := if rtr then [] else (List.range dlc).map fun i => BitVec.ofNat 8 (parseField s (2 + n + 2 * i) 2) }

/-- FRAME_DECODE (R109): it fails for no line but one that is no frame line (R114, R115). -/
def frameDecode (c : Cfg) : Line → Except Err Result
  | [] => .error .notAFrame
  | b :: rest =>
    match letterFlags b with
    | none => .error .notAFrame
    | some f => .ok (.frame (decodeFrame c (b :: rest) f.1 f.2))

/-- FRAME_MAKE, opcode 0x01 (R102). -/
def execFrameMake (r : RawFrame) (s : State) : Outcome := s.complete (frameMake s.cfg r)

/-- FRAME_ENCODE, opcode 0x02 (R105). -/
def execFrameEncode (r : RawFrame) (s : State) : Outcome := s.complete (frameEncode s.cfg r)

/-- FRAME_DECODE, opcode 0x03 (R109). -/
def execFrameDecode (l : Line) (s : State) : Outcome := s.complete (frameDecode s.cfg l)

end Sys2Proof.Machine
end

