-- ==== Sys2Proof/Machine/LineKinds.lean ====
section
/-! DEFINITION. The illegal opcodes (`30_encoding.md` R62) and the seventeen line kinds (R72 to R89), each the operand line of
a FRAME_DECODE request: the four frame lines decode, every other kind answers NotAFrame (R80). -/

namespace Sys2Proof.Machine

/-- A line whose first byte and rest are given, performed as FRAME_DECODE performs its operand (R80, R109). -/
def execLine (first : Byte) (rest : Line) (s : State) : Outcome := s.complete (frameDecode s.cfg (first :: rest))

/-- An opcode outside the map (R62): "the step writes `RSP <- (IllegalOp, none)` and produces nothing else", whatever its
operands are. -/
def execIllegal (_opcode : Byte) (_operands : Operands) (s : State) : Outcome := s.complete (.error .illegalOp)

/-- Standard data frame line, `t` (R72). -/
def execLineStdData (rest : Line) (s : State) : Outcome := execLine (ascii 't') rest s

/-- Standard remote frame line, `r` (R73). -/
def execLineStdRemote (rest : Line) (s : State) : Outcome := execLine (ascii 'r') rest s

/-- Extended data frame line, `T` (R74). -/
def execLineExtData (rest : Line) (s : State) : Outcome := execLine (ascii 'T') rest s

/-- Extended remote frame line, `R` (R75). -/
def execLineExtRemote (rest : Line) (s : State) : Outcome := execLine (ascii 'R') rest s

/-- Preset baud line, `S` (R77): no frame line (R80). -/
def execLinePreset (rest : Line) (s : State) : Outcome := execLine (ascii 'S') rest s

/-- Custom timing line, `s` (R78): no frame line (R80). -/
def execLineTiming (rest : Line) (s : State) : Outcome := execLine (ascii 's') rest s

/-- Register write line, `W` (R79): no frame line (R80). -/
def execLineRegWrite (rest : Line) (s : State) : Outcome := execLine (ascii 'W') rest s

/-- Close channel, `C` (R81). -/
def execLineClose (rest : Line) (s : State) : Outcome := execLine (ascii 'C') rest s

/-- Open channel active, `O` (R82). -/
def execLineOpenActive (rest : Line) (s : State) : Outcome := execLine (ascii 'O') rest s

/-- Open channel listen-only, `L` (R83). -/
def execLineOpenListen (rest : Line) (s : State) : Outcome := execLine (ascii 'L') rest s

/-- Open channel loopback, `l` (R84). -/
def execLineOpenLoopback (rest : Line) (s : State) : Outcome := execLine (ascii 'l') rest s

/-- Firmware version query or reply, `v` (R85). -/
def execLineFirmware (rest : Line) (s : State) : Outcome := execLine (ascii 'v') rest s

/-- Hardware version query or reply, `V` (R86). -/
def execLineHardware (rest : Line) (s : State) : Outcome := execLine (ascii 'V') rest s

/-- Serial number query or reply, `N` (R87). -/
def execLineSerial (rest : Line) (s : State) : Outcome := execLine (ascii 'N') rest s

/-- Frame acknowledgement, `z` (R88). -/
def execLineAckLower (rest : Line) (s : State) : Outcome := execLine (ascii 'z') rest s

/-- Frame acknowledgement, `Z` (R88). -/
def execLineAckUpper (rest : Line) (s : State) : Outcome := execLine (ascii 'Z') rest s

/-- The BELL byte 0x07 where a line operand begins with it (R89): an ordinary byte, so no frame line (DV31). -/
def execByteBell (rest : Line) (s : State) : Outcome := execLine 0x07#8 rest s

end Sys2Proof.Machine
end

