-- ==== Sys2Proof/Machine/Dispatch.lean ====
section
/-! DEFINITION. exec: one arm for each instruction, each one call of its meaning. -/

namespace Sys2Proof.Machine

def exec (i : Instr) (s : State) : Host.Outcome State Fault Refusal :=
  match i with
  | .frameMake r => Sys2Proof.Machine.execFrameMake r s
  | .frameEncode r => Sys2Proof.Machine.execFrameEncode r s
  | .frameDecode l => Sys2Proof.Machine.execFrameDecode l s
  | .baudCompute b => Sys2Proof.Machine.execBaudCompute b s
  | .maskEncode p => Sys2Proof.Machine.execMaskEncode p s
  | .filterValueEncode p => Sys2Proof.Machine.execFilterValueEncode p s
  | .filterProgram cs => Sys2Proof.Machine.execFilterProgram cs s
  | .regWriteFormat w => Sys2Proof.Machine.execRegWriteFormat w s
  | .illegal op o => Sys2Proof.Machine.execIllegal op o s
  | .lineStdData l => Sys2Proof.Machine.execLineStdData l s
  | .lineStdRemote l => Sys2Proof.Machine.execLineStdRemote l s
  | .lineExtData l => Sys2Proof.Machine.execLineExtData l s
  | .lineExtRemote l => Sys2Proof.Machine.execLineExtRemote l s
  | .linePreset l => Sys2Proof.Machine.execLinePreset l s
  | .lineTiming l => Sys2Proof.Machine.execLineTiming l s
  | .lineRegWrite l => Sys2Proof.Machine.execLineRegWrite l s
  | .lineClose l => Sys2Proof.Machine.execLineClose l s
  | .lineOpenActive l => Sys2Proof.Machine.execLineOpenActive l s
  | .lineOpenListen l => Sys2Proof.Machine.execLineOpenListen l s
  | .lineOpenLoopback l => Sys2Proof.Machine.execLineOpenLoopback l s
  | .lineFirmware l => Sys2Proof.Machine.execLineFirmware l s
  | .lineHardware l => Sys2Proof.Machine.execLineHardware l s
  | .lineSerial l => Sys2Proof.Machine.execLineSerial l s
  | .lineAckLower l => Sys2Proof.Machine.execLineAckLower l s
  | .lineAckUpper l => Sys2Proof.Machine.execLineAckUpper l s
  | .byteBell l => Sys2Proof.Machine.execByteBell l s

end Sys2Proof.Machine
end

