-- ==== Sys2Proof/Machine/Outside.lean ====
section
/-! DEFINITION. The moves of the outside: the host places requests and sends the lines of its responses, the target
controller performs the lines it is sent (`10_state.md` R22, R37; `20_memory.md` R41, R52; `70_reset_and_hazards.md` R240 to
R245). None of this is the block. -/

namespace Sys2Proof.Machine

/-- The lines a response gives the host to send, in order (R31, R61, R183); an error gives none (R212), a frame or a tuple
holds none. -/
def Rsp.lines (r : Rsp) : List Line :=
  match r.valid, r.result with
  | true, some (.line l) => [l]
  | true, some (.baud (.preset _ l)) => [l]
  | true, some (.baud (.custom k)) => [k.line]
  | true, some (.program _ ls) => ls
  | _, _ => []

/-- The bytes of lines as they are sent: "in list order, each followed by one `CFG.LINE_TERM` byte" (R244, R70). -/
def wireBytes (term : Byte) (ls : List Line) : List Byte := ls.flatMap fun l => l ++ [term]

/-- The first complete line on the wire and the bytes after its terminator. -/
def takeLine (term : Byte) : List Byte → Option (Line × List Byte)
  | [] => none
  | b :: bs =>
    if b = term then some ([], bs)
    else
      match takeLine term bs with
      | some p => some (b :: p.1, p.2)
      | none => none

/-- The register write a line stands for, if it is a line of R79. -/
def parseRegWriteLine (l : Line) : Option RegWrite :=
  let w : RegWrite := ⟨BitVec.ofNat 8 (parseField l 1 2), BitVec.ofNat 8 (parseField l 3 2)⟩
  if regWriteLine w = l then some w else none

/-- The three timing bytes a line carries, if it is a line of R78, in the order of R47. -/
def parseTimingLine (l : Line) : Option Timing :=
  let cnf1 : Byte := BitVec.ofNat 8 (parseField l 1 2)
  let cnf23 : BitVec 16 := BitVec.ofNat 16 (parseField l 3 4)
  if timingLine cnf1 cnf23 = l then
    some { cnf1 := cnf1, cnf2 := (cnf23 >>> 8).setWidth 8, cnf3 := cnf23.setWidth 8 }
  else none

/-- The timing registers after a preset line, if it is a line of R77; their values are free (log entry 12). -/
def parsePresetLine (c : Cfg) (l : Line) : Option Timing :=
  match l with
  | [_, d] => if c.presetChar.toList.contains d then some (Config.presetTiming d) else none
  | _ => none

/-- The target performing one line (R41, R52). A `W` line writes one register, an `s` or `S` line sets the timing registers;
every other line leaves them all as they are, since the writes of `W` lines are the only memory effects (R52;
log entries 15, 16 and 21). -/
def State.performLine (s : State) (l : Line) : Outcome :=
  match l.head? with
  | none => .next s
  | some b =>
    if b = ascii 'W' then
      match parseRegWriteLine l with
      | some w => .next (s.writeTarget w)
      | none => .refused .malformedDeviceLine
    else if b = ascii 's' then
      match parseTimingLine l with
      | some t => .next { s with timing := t }
      | none => .refused .malformedDeviceLine
    else if b = ascii 'S' then
      match parsePresetLine s.cfg l with
      | some t => .next { s with timing := t }
      | none => .refused .malformedDeviceLine
    else .next s

/-- A move of the host. Every one but a reset is made while no request stands and no line is under way. With no move left
the machine has no step (R24). -/
def State.hostStep (s : State) : Outcome :=
  match s.host with
  | .request op o :: moves => .next { s with host := moves, req := { valid := true, opcode := op, operands := o } }
  | .await :: moves => .next { s with host := moves }
  | .send :: moves => .next { s with host := moves, wire := s.wire ++ wireBytes s.cfg.lineTerm s.rsp.lines }
  | .reset :: moves => .next (State.resetBlock { s with host := moves })
  | [] => .fault .noRequest

/-- A step while `REQ.valid = 0`: the target performs the first line on the wire, one line before the next (R52, R244);
when none is complete, the host moves. -/
def State.outsideStep (s : State) : Outcome :=
  match takeLine s.cfg.lineTerm s.wire with
  | some p => State.performLine { s with wire := p.2 } p.1
  | none => s.hostStep

/-- The host's next move is a reset, which no request holds up. -/
def State.resetDue (s : State) : Bool := s.host.head? == some .reset

end Sys2Proof.Machine
end

