-- ==== Sys2Proof/Machine/Step.lean ====
section
/-! DEFINITION. One step of the machine, and the placing of a table word where the next step reads it. -/

namespace Sys2Proof.Machine

/-- The block's step (R24): decode the request and perform it. The decoder's refusal and an ill-formed `CFG` (R242) stop it. -/
def blockStep (s : State) : Outcome :=
  if s.cfg.wf then
    match decode s.fetch with
    | .ok i => exec i s
    | .error (.operandRecordMismatch op) => .refused (.operandRecordMismatch op)
  else .fault .configNotWellFormed

/-- One step: a reset that is due happens at once and loses a request not yet performed (R240); else the block performs the
request that stands (R24); else the outside moves (log entry 6). -/
def step (s : State) : Host.Outcome State Fault Refusal :=
  if s.resetDue then s.hostStep
  else if s.req.valid then blockStep s
  else s.outsideStep

/-- The state with a table word's request in REQ, so that the next step performs it (log entry 4): a reset that would come
first is dropped from the host's moves. -/
def State.withFetchWord (s : State) (_nbits w : Nat) : State :=
  let q := tableRequest w
  { s with
    req := { valid := true, opcode := q.opcode, operands := q.operands }
    host := s.host.dropWhile (· == .reset) }

end Sys2Proof.Machine
end

