-- ==== Sys2Proof/Machine/Assembler.lean ====
section
/-! DEFINITION. The assembler syntax of a request (`30_encoding.md` R64), with numbers in the notation of `00_scope.md` R4, read
into the request it is written for. No step of the machine calls it. -/

namespace Sys2Proof.Machine

/-- The tokens of the syntax: a name, a number, a double-quoted line, a punctuation mark. -/
inductive Token where
  | word (w : Line)
  | num  (n : Nat)
  | str  (l : Line)
  | mark (b : Byte)
deriving DecidableEq, Repr

/-- The bytes of an ASCII text. -/
def asciiText (s : String) : Line := s.toList.map ascii

/-- The value of a run of digits in a base, the most significant first. -/
def numeralIn (base acc : Nat) : Line → Option Nat
  | [] => some acc
  | c :: cs =>
    match hexval c with
    | some d => if d < base then numeralIn base (acc * base + d) cs else none
    | none => none

/-- A number (R4): `0x` for hexadecimal, `0b` for binary, else decimal. -/
def number (w : Line) : Option Nat :=
  match w with
  | [] => none
  | [d] => numeralIn 10 0 [d]
  | z :: b :: ds =>
    if z = ascii '0' ∧ b = ascii 'x' then (if ds.isEmpty then none else numeralIn 16 0 ds)
    else if z = ascii '0' ∧ b = ascii 'b' then (if ds.isEmpty then none else numeralIn 2 0 ds)
    else numeralIn 10 0 w

def isDigit (b : Byte) : Bool := decide (0x30 ≤ b.toNat ∧ b.toNat ≤ 0x39)

/-- The bytes of names and numbers: letters, digits and the underscore. -/
def isWordByte (b : Byte) : Bool :=
  isDigit b || decide (0x41 ≤ b.toNat ∧ b.toNat ≤ 0x5A) || decide (0x61 ≤ b.toNat ∧ b.toNat ≤ 0x7A) || b == ascii '_'

/-- The tokens of a text, blanks between them dropped; the first argument bounds their number. A double-quoted line ends at
the next double quote, with no escape, and takes every byte before that as it stands, bytes that are no printable ASCII and
line ends among them: the model's choice, since R64 says "double-quoted ASCII" and gives no escape (DESIGN CHOICE, log
entry 13). -/
def tokens : Nat → Line → Option (List Token)
  | _, [] => some []
  | 0, _ :: _ => none
  | n + 1, b :: rest =>
    if b = 0x20#8 ∨ b = 0x09#8 ∨ b = 0x0A#8 ∨ b = 0x0D#8 then tokens n rest
    else if b = 0x22#8 then
      match rest.dropWhile (· != 0x22#8) with
      | _ :: after => (tokens n after).map (Token.str (rest.takeWhile (· != 0x22#8)) :: ·)
      | [] => none
    else if isDigit b then
      (number ((b :: rest).takeWhile isWordByte)).bind fun v =>
        (tokens n (rest.dropWhile isWordByte)).map (Token.num v :: ·)
    else if isWordByte b then
      (tokens n (rest.dropWhile isWordByte)).map (Token.word ((b :: rest).takeWhile isWordByte) :: ·)
    else (tokens n rest).map (Token.mark b :: ·)

/-- What a reader answers: the thing read and the tokens after it. -/
abbrev Reader (α : Type) := List Token → Option (α × List Token)

def readMark (b : Byte) : Reader Unit
  | t :: ts => if t = .mark b then some ((), ts) else none
  | [] => none

def readWord (w : String) : Reader Unit
  | t :: ts => if t = .word (asciiText w) then some ((), ts) else none
  | [] => none

/-- A number that fits its operand field: "An operand field of width w holds any value 0 to 2^w − 1" (R63). -/
def readNumber (w : Nat) : Reader (BitVec w)
  | .num n :: ts => if n < 2 ^ w then some (BitVec.ofNat w n, ts) else none
  | _ => none

/-- `key=<n>`. -/
def readField (key : String) (w : Nat) : Reader (BitVec w) := fun ts => do
  let (_, ts) ← readWord key ts
  let (_, ts) ← readMark (ascii '=') ts
  readNumber w ts

/-- `, key=<n>`. -/
def readNext (key : String) (w : Nat) : Reader (BitVec w) := fun ts => do
  let (_, ts) ← readMark (ascii ',') ts
  readField key w ts

/-- `[, key=<b>]`: "an omitted `d0` or `d1` is 0" (R64). -/
def readOptional (key : String) : Reader Byte := fun ts => some ((readNext key 8 ts).getD (0#8, ts))

/-- One or more things separated by commas, up to the closing bracket; the first argument bounds their number. -/
def readItems {α : Type} (item : Reader α) : Nat → Reader (List α)
  | 0, _ => none
  | n + 1, ts => do
    let (a, ts) ← item ts
    match readMark (ascii ']') ts with
    | some (_, ts) => some ([a], ts)
    | none =>
      let (_, ts) ← readMark (ascii ',') ts
      let (as, ts) ← readItems item n ts
      some (a :: as, ts)

/-- `[a, b, ...]`, the empty list among them. -/
def readList {α : Type} (item : Reader α) : Reader (List α) := fun ts => do
  let (_, ts) ← readMark (ascii '[') ts
  match readMark (ascii ']') ts with
  | some (_, ts) => some ([], ts)
  | none => readItems item ts.length ts

/-- `id=<n>, ext=<0|1>, rtr=<0|1>, dlc=<n>, data=[<b>, ...]`. -/
def readRawFrame : Reader RawFrame := fun ts => do
  let (id, ts) ← readField "id" 32 ts
  let (ext, ts) ← readNext "ext" 1 ts
  let (rtr, ts) ← readNext "rtr" 1 ts
  let (dlc, ts) ← readNext "dlc" 8 ts
  let (_, ts) ← readMark (ascii ',') ts
  let (_, ts) ← readWord "data" ts
  let (_, ts) ← readMark (ascii '=') ts
  let (data, ts) ← readList (readNumber 8) ts
  some (⟨id, ext == 1#1, rtr == 1#1, dlc, data⟩, ts)

/-- `<STD|EXT>`. -/
def readLayout : Reader Layout
  | t :: ts =>
    if t = .word (asciiText "STD") then some (.std, ts)
    else if t = .word (asciiText "EXT") then some (.ext, ts)
    else none
  | [] => none

/-- `<STD|EXT> id=<n>[, d0=<b>, d1=<b>]`. -/
def readPattern : Reader IdPattern := fun ts => do
  let (layout, ts) ← readLayout ts
  let (id, ts) ← readField "id" 32 ts
  let (d0, ts) ← readOptional "d0" ts
  let (d1, ts) ← readOptional "d1" ts
  some (⟨layout, id, d0, d1⟩, ts)

/-- A chain: mask and filters between braces (the bytes 0x7B and 0x7D). -/
def readChain : Reader FilterChain := fun ts => do
  let (_, ts) ← readMark 0x7B#8 ts
  let (_, ts) ← readWord "mask" ts
  let (_, ts) ← readMark (ascii ':') ts
  let (mask, ts) ← readPattern ts
  let (_, ts) ← readMark (ascii ',') ts
  let (_, ts) ← readWord "filters" ts
  let (_, ts) ← readMark (ascii ':') ts
  let (filters, ts) ← readList readPattern ts
  let (_, ts) ← readMark 0x7D#8 ts
  some (⟨mask, filters⟩, ts)

/-- `"<line>"`. -/
def readLine : Reader Line
  | .str l :: ts => some (l, ts)
  | _ => none

/-- `<addr>, <value>`. -/
def readRegWrite : Reader RegWrite := fun ts => do
  let (addr, ts) ← readNumber 8 ts
  let (_, ts) ← readMark (ascii ',') ts
  let (value, ts) ← readNumber 8 ts
  some (⟨addr, value⟩, ts)

/-- The operands a mnemonic is written with, as its request (R61). -/
def readRequest (mnemonic : Line) : Reader Request := fun ts =>
  if mnemonic = asciiText "FRAME_MAKE" then (readRawFrame ts).map fun p => (⟨0x01#8, .rawFrame p.1⟩, p.2)
  else if mnemonic = asciiText "FRAME_ENCODE" then (readRawFrame ts).map fun p => (⟨0x02#8, .rawFrame p.1⟩, p.2)
  else if mnemonic = asciiText "FRAME_DECODE" then (readLine ts).map fun p => (⟨0x03#8, .line p.1⟩, p.2)
  else if mnemonic = asciiText "BAUD_COMPUTE" then (readNumber 32 ts).map fun p => (⟨0x10#8, .baud p.1⟩, p.2)
  else if mnemonic = asciiText "MASK_ENCODE" then (readPattern ts).map fun p => (⟨0x20#8, .pattern p.1⟩, p.2)
  else if mnemonic = asciiText "FILTER_VALUE_ENCODE" then (readPattern ts).map fun p => (⟨0x21#8, .pattern p.1⟩, p.2)
  else if mnemonic = asciiText "FILTER_PROGRAM" then (readList readChain ts).map fun p => (⟨0x22#8, .chains p.1⟩, p.2)
  else if mnemonic = asciiText "REG_WRITE_FORMAT" then (readRegWrite ts).map fun p => (⟨0x23#8, .regWrite p.1⟩, p.2)
  else none

/-- The request a text `MNEMONIC operands` is written for; none where it is no text of the syntax (log entry 13). -/
def assemble (text : Line) : Option Request :=
  match tokens text.length text with
  | some (.word mnemonic :: ts) =>
    match readRequest mnemonic ts with
    | some (q, []) => some q
    | _ => none
  | _ => none

end Sys2Proof.Machine
end

