-- ==== Sys2Proof/Safety.lean ====
section
/-! DEFINITION. The terms the statements use: what an answer is, what a field of a line reads as (`40_frame_codec.md` R107),
which lines and results are legal (`10_state.md` R25, `41_bit_timing.md` R152, `30_encoding.md` R70 to R79, R92, R93), the
invariant every step keeps, the safe states, from which no step is refused, and the texts of a request (R64). They are
written from the rules, apart from the meanings. -/

namespace Sys2Proof.Machine

/-- The outcome `o`, of an instruction or a step at s, answers the request: RSP is written, `REQ.valid` is cleared (R24) and
nothing else is changed (R212, R21). That `REQ.opcode` and `REQ.operands` are among what is not changed is DEDUCED from R24
(log entry 17); the fields beside CFG, REQ and RSP are the model's (log entry 7). -/
def Answers (o : Outcome) (s : State) (status : Byte) (result : Option Result) : Prop :=
  o = .next { s with req := { s.req with valid := false }, rsp := { valid := true, status := status, result := result } }

/-- The sixteen digits the block writes (R5). -/
def lowerHex : List Byte :=
  [0x30#8, 0x31#8, 0x32#8, 0x33#8, 0x34#8, 0x35#8, 0x36#8, 0x37#8, 0x38#8, 0x39#8, 0x61#8, 0x62#8, 0x63#8, 0x64#8, 0x65#8,
    0x66#8]

/-- The digits with the letters in upper case. -/
def upperHex : List Byte := lowerHex.take 10 ++ [0x41#8, 0x42#8, 0x43#8, 0x44#8, 0x45#8, 0x46#8]

/-- The two digits of a byte, the most significant first (R45). -/
def twoDigits (b : Byte) : Line := [lowerHex.getD (b.toNat / 16) 0#8, lowerHex.getD (b.toNat % 16) 0#8]

/-- The value of a byte that is a hex digit (R5), as a list of the digits in both cases: none for another byte. -/
def digitValue (b : Byte) : Option Nat :=
  if b ∈ lowerHex then some (lowerHex.idxOf b)
  else if b ∈ upperHex then some (upperHex.idxOf b)
  else none

/-- What `parseField(l, off, n)` is by R107: `Σ hexval(l[off+k]) × 16^(n-1-k)` where the field lies inside the line and every
byte of it is a hex digit, and 0 otherwise. -/
def fieldValue (l : Line) (off n : Nat) : Nat :=
  if off + n ≤ l.length ∧ ∀ k < n, (digitValue (l.getD (off + k) 0#8)).isSome then
    ((List.range n).map fun k => (digitValue (l.getD (off + k) 0#8)).getD 0 * 16 ^ (n - 1 - k)).sum
  else 0

/-- The frame R109 gives for a line with the flags `(ext, rtr)` and n identifier digits: identifier, length and payload are
the fields at their offsets, capped and normalised. -/
def DecodesTo (c : Cfg) (l : Line) (n : Nat) (ext rtr : Bool) (f : Frame) : Prop :=
  f.id.toNat = min (fieldValue l 1 n) c.idExtMax.toNat ∧
  (f.ext = true ↔ ext = true ∨ c.idStdMax.toNat < f.id.toNat) ∧
  f.rtr = rtr ∧
  f.dlc.toNat = min (fieldValue l (1 + n) 1) c.dlcMax.toNat ∧
  (rtr = true → f.data = []) ∧
  (rtr = false → f.data.length = f.dlc.toNat ∧
    ∀ i < f.dlc.toNat, (f.data.getD i 0#8).toNat = fieldValue l (2 + n + 2 * i) 2)

/-- The conditions of R101 under which a raw frame is accepted. -/
def Acceptable (c : Cfg) (r : RawFrame) : Prop :=
  r.data.length ≤ c.dlcMax.toNat ∧ r.dlc.toNat ≤ c.dlcMax.toNat ∧ (r.rtr = true → r.data = []) ∧
    (r.rtr = false → r.dlc.toNat = r.data.length)

/-- The invariants of a frame (R25). -/
def Frame.legal (c : Cfg) (f : Frame) : Prop :=
  f.id.toNat ≤ c.idExtMax.toNat ∧ (c.idStdMax.toNat < f.id.toNat → f.ext = true) ∧ f.dlc.toNat ≤ c.dlcMax.toNat ∧
    (f.rtr = false → f.data.length = f.dlc.toNat) ∧ (f.rtr = true → f.data = [])

/-- A frame as the raw frame with the same fields (R116). -/
def Frame.toRaw (f : Frame) : RawFrame :=
  { id := f.id, ext := f.ext, rtr := f.rtr, dlc := f.dlc.setWidth 8, data := f.data }

/-- What R144 and R145 say the divisor of a candidate x is: the multiple of 20 nearest to `floor(xdesired × 10 / x)`, a half
upwards, divided by 10, and clamped. -/
def IsDivisor (c : Cfg) (xdesired x xbrp : Nat) : Prop :=
  ∃ v, v % 20 = 0 ∧ v ≤ xdesired * 10 / x + 10 ∧ xdesired * 10 / x < v + 10 ∧
    xbrp = max c.xbrpMin.toNat (min c.xbrpMax.toNat (v / 10))

/-- `| xdesired - x × xbrp |` (R147). -/
def distance (xdesired x xbrp : Nat) : Nat := max (xdesired - x * xbrp) (x * xbrp - xdesired)

/-- The bits of a register tuple, by the tables of R92 and R93 (`isValue` for a filter value). -/
def TupleBits (p : IdPattern) (isValue : Bool) (t : RegTuple) : Prop :=
  match p.layout with
  | .std =>
    (∀ i < 8, t.b0.getLsbD i = p.id.getLsbD (i + 3)) ∧ (∀ i < 3, t.b1.getLsbD (i + 5) = p.id.getLsbD i) ∧
      (∀ i < 5, t.b1.getLsbD i = false) ∧ t.b2 = p.d0 ∧ t.b3 = p.d1
  | .ext =>
    (∀ i < 8, t.b0.getLsbD i = p.id.getLsbD (i + 21)) ∧ (∀ i < 3, t.b1.getLsbD (i + 5) = p.id.getLsbD (i + 18)) ∧
      t.b1.getLsbD 4 = false ∧ t.b1.getLsbD 3 = isValue ∧ t.b1.getLsbD 2 = false ∧
      (∀ i < 2, t.b1.getLsbD i = p.id.getLsbD (i + 16)) ∧ (∀ i < 8, t.b2.getLsbD i = p.id.getLsbD (i + 8)) ∧
      (∀ i < 8, t.b3.getLsbD i = p.id.getLsbD i)

/-- Four writes hold a tuple at a base address, byte k at base + k (R44). -/
def WritesTuple (ws : List RegWrite) (base : Byte) (t : RegTuple) : Prop :=
  ws = [⟨base, t.b0⟩, ⟨base + 1, t.b1⟩, ⟨base + 2, t.b2⟩, ⟨base + 3, t.b3⟩]

/-- A filter register's writes (R180): the chain's filter i as a filter value, or zeros where it has none. -/
def WritesFilter (ws : List RegWrite) (base : Byte) (filters : List IdPattern) (i : Nat) : Prop :=
  match filters[i]? with
  | some p => ∃ t, TupleBits p true t ∧ WritesTuple ws base t
  | none => WritesTuple ws base ⟨0, 0, 0, 0⟩

/-- Printable ASCII (R70). -/
def Printable (l : Line) : Prop := ∀ b ∈ l, 0x20 ≤ b.toNat ∧ b.toNat ≤ 0x7E

/-- The n digits of v in a base, the most significant first, as numbers. -/
def digitsIn (base v n : Nat) : List Nat := (List.range n).map fun k => v / base ^ (n - 1 - k) % base

/-- The text of digits. -/
def digitText (table : List Byte) (ds : List Nat) : Line := ds.map fun d => table.getD d 0#8

/-- A frame line in the format of its letter (R72 to R75): 3 or 8 digits of an identifier in its range, the length digit, and
two digits for each payload byte of a data frame. -/
def FrameLine (l : Line) : Prop :=
  ∃ (ext rtr : Bool) (id dlc : Nat) (data : List Byte),
    id ≤ (if ext then 0x1FFFFFFF else 0x7FF) ∧ dlc ≤ 8 ∧ data.length = (if rtr then 0 else dlc) ∧
    l = (if ext then (if rtr then 0x52#8 else 0x54#8) else (if rtr then 0x72#8 else 0x74#8)) ::
      (digitText lowerHex (digitsIn 16 id (if ext then 8 else 3)) ++ digitText lowerHex (digitsIn 16 dlc 1) ++
        data.flatMap twoDigits)

/-- A line in a format of the block (R71): printable (R70), and a frame line, a register write line (R79), a timing line (R78)
or a preset line (R77). -/
def BlockLine (c : Cfg) (l : Line) : Prop :=
  Printable l ∧
  (FrameLine l ∨ (∃ w : RegWrite, l = 0x57#8 :: (twoDigits w.addr ++ twoDigits w.value)) ∨
    (∃ b1 b2 b3 : Byte, l = 0x73#8 :: (twoDigits b1 ++ twoDigits b2 ++ twoDigits b3)) ∨
    ∃ i : Fin 9, l = [0x53#8, c.presetChar[i]])

/-- The ranges of a CUSTOM result (R152), its fields' relations (R146, R147, R149) and its line's bytes (R150). -/
def CustomTiming.legal (c : Cfg) (k : CustomTiming) : Prop :=
  c.xMin.toNat ≤ k.x ∧ k.x ≤ c.xMax.toNat ∧ c.xbrpMin.toNat ≤ k.xbrp ∧ k.xbrp ≤ c.xbrpMax.toNat ∧ k.xbrp % 2 = 0 ∧
    k.brp.toNat = k.xbrp / 2 - 1 ∧ k.diff = distance k.xdesired k.x k.xbrp ∧
    k.cnf1 = k.brp.setWidth 8 ||| c.cnf1Fixed ∧ c.cnfTable[k.x - c.xMin.toNat]? = some k.cnf23 ∧
    k.line = 0x73#8 :: (twoDigits k.cnf1 ++ twoDigits ((k.cnf23 >>> 8).setWidth 8) ++ twoDigits (k.cnf23.setWidth 8))

/-- The achieved rate of a custom result (R151), a rational number of bits a second; "the block does not compute it" (log
entry 18). -/
def CustomTiming.achievedRate (c : Cfg) (k : CustomTiming) : Rat := (c.oscHz.toNat : Rat) / ((k.x * k.xbrp : Nat) : Rat)

/-- The results the block answers with. -/
def Result.legal (c : Cfg) : Result → Prop
  | .frame f => f.legal c
  | .line l => BlockLine c l
  | .baud (.preset i l) => l = [0x53#8, c.presetChar[i]]
  | .baud (.custom k) => k.legal c
  | .tuple _ => True
  | .program ws ls =>
    (ws.length = 8 ∨ ws.length = 32) ∧ ls = ws.map fun w => 0x57#8 :: (twoDigits w.addr ++ twoDigits w.value)

/-- A response that has been written (R23, R210): a status of the table, a result exactly where it is OK, and a legal one. -/
def Rsp.legal (c : Cfg) (r : Rsp) : Prop :=
  r.valid = true → r.status.toNat ≤ 6 ∧ (r.result.isSome ↔ r.status = 0x00#8) ∧ ∀ x, r.result = some x → x.legal c

/-- The invariant every step keeps: a well-formed configuration (R3) with the source's own values (D45) and a control byte
for a terminator, a legal response, and the register space in its canonical form. -/
def State.Inv (s : State) : Prop :=
  s.cfg.wf = true ∧ s.cfg.sourceFixed ∧ s.cfg.textual ∧ s.rsp.legal s.cfg ∧ Memory.wf s.target = true

/-- The operand record is the one the opcode selects (R22, R61); an illegal opcode selects none and takes any (R62). -/
def TypedRequest (op : Byte) (o : Operands) : Prop :=
  match op.toNat, o with
  | 0x01, .rawFrame _ | 0x02, .rawFrame _ | 0x03, .line _ | 0x10, .baud _ | 0x20, .pattern _ | 0x21, .pattern _
  | 0x22, .chains _ | 0x23, .regWrite _ => True
  | n, _ => n ∉ [0x01, 0x02, 0x03, 0x10, 0x20, 0x21, 0x22, 0x23]

/-- A safe state: the invariant holds, every request is typed, those to come among them, and the wire holds whole lines in
formats of the block, each with its terminator (R244). -/
def State.Safe (s : State) : Prop :=
  s.Inv ∧ (s.req.valid = true → TypedRequest s.req.opcode s.req.operands) ∧
    (∀ op o, HostMove.request op o ∈ s.host → TypedRequest op o) ∧
    ∃ ls : List Line, s.wire = ls.flatMap (fun l => l ++ [s.cfg.lineTerm]) ∧ ∀ l ∈ ls, BlockLine s.cfg l

/-- The block performs its request in this step: one stands, and no reset comes first. -/
def State.blockTurn (s : State) : Prop := s.req.valid = true ∧ s.host.head? ≠ some .reset

/-- The target performs a line in this step: no request stands, no reset comes first, and the wire begins with the line. -/
def State.lineTurn (s : State) (l : Line) (rest : List Byte) : Prop :=
  s.req.valid = false ∧ s.host.head? ≠ some .reset ∧ s.wire = l ++ s.cfg.lineTerm :: rest ∧ s.cfg.lineTerm ∉ l

/-- The host moves in this step: no request stands and the wire holds no complete line. -/
def State.hostTurn (s : State) : Prop := s.req.valid = false ∧ s.cfg.lineTerm ∉ s.wire

/-! ### The texts of a request (R64) -/

/-- A text of the number v (R4): one digit or more, in hexadecimal after `0x`, in binary after `0b`, else in decimal. Digits
above 9 may be in either case (log entry 13). -/
def NumberText (v : Nat) (t : Line) : Prop :=
  ∃ n, 1 ≤ n ∧
    (v < 16 ^ n ∧ (t = 0x30#8 :: 0x78#8 :: digitText lowerHex (digitsIn 16 v n) ∨
        t = 0x30#8 :: 0x78#8 :: digitText upperHex (digitsIn 16 v n)) ∨
      v < 2 ^ n ∧ t = 0x30#8 :: 0x62#8 :: digitText lowerHex (digitsIn 2 v n) ∨
      v < 10 ^ n ∧ t = digitText lowerHex (digitsIn 10 v n))

/-- A text of a token. A line in double quotes holds no double quote, since the spec gives no escape (log entry 13). -/
def TokenText : Token → Line → Prop
  | .word w, t => t = w
  | .num v, t => NumberText v t
  | .str l, t => 0x22#8 ∉ l ∧ t = 0x22#8 :: (l ++ [0x22#8])
  | .mark b, t => t = [b]

def IsBlank (b : Byte) : Prop := b ∈ [0x20#8, 0x09#8, 0x0A#8, 0x0D#8]

/-- The token is a name or a number, so that another one after it must be set apart by a blank. -/
def Token.isName : Token → Bool
  | .word _ | .num _ => true
  | .str _ | .mark _ => false

/-- The text holds the tokens in order, with any blanks between and around them (log entry 13) and some between a name or
number and the next. -/
def Spaced : List Token → Line → Prop
  | [], t => ∀ b ∈ t, IsBlank b
  | tok :: toks, t => ∃ blanks x rest, (∀ b ∈ blanks, IsBlank b) ∧ TokenText tok x ∧ Spaced toks rest ∧
      t = blanks ++ (x ++ rest) ∧
      (tok.isName = true → (∃ next, toks.head? = some next ∧ next.isName = true) → ∃ b, rest.head? = some b ∧ IsBlank b)

def nameToken (s : String) : Token := .word (s.toList.map fun c => BitVec.ofNat 8 c.toNat)

def commaToken : Token := .mark 0x2C#8

/-- `key=<n>`. -/
def fieldTokens (key : String) (v : Nat) : List Token := [nameToken key, .mark 0x3D#8, .num v]

/-- `[x, ...]`. -/
def listTokens (items : List (List Token)) : List Token :=
  .mark 0x5B#8 :: ((items.intersperse [commaToken]).flatten ++ [.mark 0x5D#8])

/-- `id=<n>, ext=<0|1>, rtr=<0|1>, dlc=<n>, data=[<b>, ...]`. -/
def rawFrameTokens (r : RawFrame) : List Token :=
  fieldTokens "id" r.id.toNat ++ commaToken :: (fieldTokens "ext" r.ext.toNat ++ commaToken :: (fieldTokens "rtr" r.rtr.toNat ++
    commaToken :: (fieldTokens "dlc" r.dlc.toNat ++ commaToken :: nameToken "data" :: .mark 0x3D#8 ::
      listTokens (r.data.map fun b => [.num b.toNat]))))

/-- `[, key=<b>]`, which may be left out where the value is 0. -/
def OptionalTokens (key : String) (v : Byte) (ts : List Token) : Prop :=
  ts = commaToken :: fieldTokens key v.toNat ∨ (ts = [] ∧ v = 0)

/-- `<STD|EXT>`. -/
def layoutName : Layout → String
  | .std => "STD"
  | .ext => "EXT"

/-- `<STD|EXT> id=<n>[, d0=<b>, d1=<b>]`. -/
def PatternTokens (p : IdPattern) (ts : List Token) : Prop :=
  ∃ t0 t1, OptionalTokens "d0" p.d0 t0 ∧ OptionalTokens "d1" p.d1 t1 ∧
    ts = nameToken (layoutName p.layout) :: (fieldTokens "id" p.id.toNat ++ (t0 ++ t1))

/-- A chain: `mask: <pattern>, filters: [<pattern>, ...]` between braces (the bytes 0x7B and 0x7D). -/
def ChainTokens (c : FilterChain) (ts : List Token) : Prop :=
  ∃ m fs, PatternTokens c.mask m ∧ List.Forall₂ PatternTokens c.filters fs ∧
    ts = .mark 0x7B#8 :: nameToken "mask" :: .mark 0x3A#8 :: (m ++ commaToken :: nameToken "filters" :: .mark 0x3A#8 ::
      (listTokens fs ++ [.mark 0x7D#8]))

/-- The tokens of a request: its mnemonic and its operands (R64), the opcode being the mnemonic's (R61). -/
inductive RequestTokens : Request → List Token → Prop where
  | frameMake (r : RawFrame) : RequestTokens ⟨0x01#8, .rawFrame r⟩ (nameToken "FRAME_MAKE" :: rawFrameTokens r)
  | frameEncode (r : RawFrame) : RequestTokens ⟨0x02#8, .rawFrame r⟩ (nameToken "FRAME_ENCODE" :: rawFrameTokens r)
  | frameDecode (l : Line) : RequestTokens ⟨0x03#8, .line l⟩ [nameToken "FRAME_DECODE", .str l]
  | baudCompute (b : BitVec 32) : RequestTokens ⟨0x10#8, .baud b⟩ [nameToken "BAUD_COMPUTE", .num b.toNat]
  | maskEncode (p : IdPattern) (ts : List Token) (h : PatternTokens p ts) :
      RequestTokens ⟨0x20#8, .pattern p⟩ (nameToken "MASK_ENCODE" :: ts)
  | filterValueEncode (p : IdPattern) (ts : List Token) (h : PatternTokens p ts) :
      RequestTokens ⟨0x21#8, .pattern p⟩ (nameToken "FILTER_VALUE_ENCODE" :: ts)
  | filterProgram (cs : List FilterChain) (ts : List (List Token)) (h : List.Forall₂ ChainTokens cs ts) :
      RequestTokens ⟨0x22#8, .chains cs⟩ (nameToken "FILTER_PROGRAM" :: listTokens ts)
  | regWriteFormat (w : RegWrite) :
      RequestTokens ⟨0x23#8, .regWrite w⟩
        [nameToken "REG_WRITE_FORMAT", .num w.addr.toNat, commaToken, .num w.value.toNat]

/-- The text writes the request (R64). -/
def Writes (text : Line) (q : Request) : Prop := ∃ toks, RequestTokens q toks ∧ Spaced toks text

end Sys2Proof.Machine
end

