-- ==== Sys2Proof/Certificates/Slice0/Obligations.lean ====
section
/-! DEFINITION. The statements for the provers. Numbers that stand in a statement are the spec's, not the model's names for
them; `s.cfg.sourceFixed` says that the parameters the source gives a value hold it and leaves `OSC_HZ`, `LINE_TERM`,
`PRESET_CHAR`, `CNF_TABLE`, `MASK_BASE0` and `FILTER_BASE` arbitrary (`92_eei_decisions.md` D45). -/

open Sys2Proof Sys2Proof.Machine

/-! ### Reset and the invariants -/

/-- R36: after reset `CFG` holds the values of R2, `REQ.valid = 0` and `RSP.valid = 0`. -/
def Obligations.ResetLoadsConfigurationAndClearsValids : Prop :=
  State.reset.req.valid = false ∧ State.reset.rsp.valid = false ∧
  State.reset.cfg.oscHz = 24000000#32 ∧ State.reset.cfg.lineTerm = 0x0D#8 ∧
  State.reset.cfg.presetRates.toList.map BitVec.toNat =
    [10000, 20000, 50000, 100000, 125000, 250000, 500000, 800000, 1000000] ∧
  State.reset.cfg.presetChar.toList.map BitVec.toNat = [0x30, 0x31, 0x32, 0x33, 0x34, 0x35, 0x36, 0x37, 0x38] ∧
  State.reset.cfg.xMin = 11#5 ∧ State.reset.cfg.xMax = 23#5 ∧ State.reset.cfg.xbrpMin = 2#8 ∧
  State.reset.cfg.xbrpMax = 128#8 ∧ State.reset.cfg.cnf1Fixed = 0xC0#8 ∧
  State.reset.cfg.cnfTable.map BitVec.toNat = [0x9203, 0x9303, 0x9B03, 0x9B04, 0x9C04, 0xA404, 0xA405, 0xAC05, 0xAC06,
    0xAD06, 0xB506, 0xB507, 0xBD07] ∧
  State.reset.cfg.exideBit = 0x08#8 ∧ State.reset.cfg.maskBase0 = 0x20#8 ∧ State.reset.cfg.maskStride = 4#8 ∧
  State.reset.cfg.filterBase.toList.map BitVec.toNat = [0x00, 0x04, 0x08, 0x10, 0x14, 0x18] ∧
  State.reset.cfg.slotFilters0 = 2#3 ∧ State.reset.cfg.slotFilters1 = 4#3 ∧ State.reset.cfg.maxChains = 2#2 ∧
  State.reset.cfg.singleChainMax = 4#3 ∧ State.reset.cfg.idStdMax = 0x7FF#32 ∧
  State.reset.cfg.idExtMax = 0x1FFFFFFF#32 ∧ State.reset.cfg.dlcMax = 8#4 ∧ State.reset.cfg.stdIdDigits = 3#4 ∧
  State.reset.cfg.extIdDigits = 8#4

/-- The reset state is safe, so it meets the invariant. -/
def Obligations.ResetIsSafe : Prop := State.reset.Safe

/-- Every step keeps the invariant: the configuration stays well formed and the source's (R3, R32), the response stays one
of R210 with a legal result (R23, R25, R152, R182), the register space stays canonical. -/
def Obligations.StepKeepsInvariant : Prop :=
  ∀ s t : State, s.Inv → step s = .next t → t.Inv

/-- Every step from a safe state leads to a safe state: lines put on the wire are in the block's formats (R71 to R79), whole and
with their terminators. That the host sends them so is its duty in the model (log entry 7). -/
def Obligations.StepKeepsSafe : Prop :=
  ∀ s t : State, s.Safe → step s = .next t → t.Safe

/-- A safe state is never refused and never faults but where the block has no request and the outside nothing left to do. -/
def Obligations.SafeStateStopsOnlyWhenIdle : Prop :=
  ∀ s : State, s.Safe →
    (∃ t, step s = .next t) ∨
    (step s = .fault .noRequest ∧ s.req.valid = false ∧ s.host = [] ∧ s.wire = [])

/-! ### Requests, decoding and the step -/

/-- Decoding the encoding of a well-formed instruction gives it back, with every operand at every value. -/
def Obligations.DecodeOfEncodeIsIdentity : Prop :=
  ∀ i : Instr, i.wf = true → decode (encode i) = .ok i

/-- Every request the decoder reads is the encoding of the instruction it gives, which is well formed: no two requests are
one instruction. -/
def Obligations.EncodeOfDecodeIsIdentity : Prop :=
  ∀ (q : Request) (i : Instr), decode q = .ok i → encode i = q ∧ i.wf = true

/-- The opcode map (R61), one row for each operation, at every operand record, and every opcode of R62. A FRAME_DECODE request
decodes to FRAME_DECODE where its line is of no kind, and else to the kind (`LineKindsDecodeByFirstByte`): the model's choice
(log entry 3). A sanity statement. -/
def Obligations.OpcodeMapDecodes : Prop :=
  (∀ r, decode ⟨0x01#8, .rawFrame r⟩ = .ok (.frameMake r)) ∧
  (∀ r, decode ⟨0x02#8, .rawFrame r⟩ = .ok (.frameEncode r)) ∧
  decode ⟨0x03#8, .line []⟩ = .ok (.frameDecode []) ∧
  (∀ b l, b ∉ [0x74#8, 0x72#8, 0x54#8, 0x52#8, 0x53#8, 0x73#8, 0x57#8, 0x43#8, 0x4F#8, 0x4C#8, 0x6C#8, 0x76#8, 0x56#8, 0x4E#8,
      0x7A#8, 0x5A#8, 0x07#8] →
    decode ⟨0x03#8, .line (b :: l)⟩ = .ok (.frameDecode (b :: l))) ∧
  (∀ b, decode ⟨0x10#8, .baud b⟩ = .ok (.baudCompute b)) ∧
  (∀ p, decode ⟨0x20#8, .pattern p⟩ = .ok (.maskEncode p)) ∧
  (∀ p, decode ⟨0x21#8, .pattern p⟩ = .ok (.filterValueEncode p)) ∧
  (∀ cs, decode ⟨0x22#8, .chains cs⟩ = .ok (.filterProgram cs)) ∧
  (∀ w, decode ⟨0x23#8, .regWrite w⟩ = .ok (.regWriteFormat w)) ∧
  ∀ op o,
    (op = 0x00#8 ∨ (0x04 ≤ op.toNat ∧ op.toNat ≤ 0x0F) ∨ (0x11 ≤ op.toNat ∧ op.toNat ≤ 0x1F) ∨ 0x24 ≤ op.toNat) →
    decode ⟨op, o⟩ = .ok (.illegal op o)

/-- R64: the assembler reads a text that writes a request, with every operand at every value and every number in every notation
of R4, as that request: FRAME_MAKE's text as opcode 0x01 with its raw frame, and so on. Blanks between tokens, the digits'
case, a line in double quotes up to the next double quote and each of `d0` and `d1` left out on its own are the model's
choice (log entry 13). -/
def Obligations.AssemblerReadsTheTextOfEachRequest : Prop :=
  ∀ (q : Request) (text : Line), Writes text q → assemble text = some q

/-- R64: every request the assembler reads from a text decodes, and to a well-formed instruction that is no illegal one. Which
text gives which request is `AssemblerReadsTheTextOfEachRequest`. -/
def Obligations.AssembledRequestsDecode : Prop :=
  ∀ (text : Line) (q : Request), assemble text = some q →
    ∃ i, decode q = .ok i ∧ i.wf = true ∧ ∀ op o, i ≠ .illegal op o

/-- The first byte of a line presented to FRAME_DECODE selects its kind (R70, R72 to R89); a sanity statement. -/
def Obligations.LineKindsDecodeByFirstByte : Prop :=
  ∀ l : Line,
    decode ⟨0x03#8, .line (0x74#8 :: l)⟩ = .ok (.lineStdData l) ∧
    decode ⟨0x03#8, .line (0x72#8 :: l)⟩ = .ok (.lineStdRemote l) ∧
    decode ⟨0x03#8, .line (0x54#8 :: l)⟩ = .ok (.lineExtData l) ∧
    decode ⟨0x03#8, .line (0x52#8 :: l)⟩ = .ok (.lineExtRemote l) ∧
    decode ⟨0x03#8, .line (0x53#8 :: l)⟩ = .ok (.linePreset l) ∧
    decode ⟨0x03#8, .line (0x73#8 :: l)⟩ = .ok (.lineTiming l) ∧
    decode ⟨0x03#8, .line (0x57#8 :: l)⟩ = .ok (.lineRegWrite l) ∧
    decode ⟨0x03#8, .line (0x43#8 :: l)⟩ = .ok (.lineClose l) ∧
    decode ⟨0x03#8, .line (0x4F#8 :: l)⟩ = .ok (.lineOpenActive l) ∧
    decode ⟨0x03#8, .line (0x4C#8 :: l)⟩ = .ok (.lineOpenListen l) ∧
    decode ⟨0x03#8, .line (0x6C#8 :: l)⟩ = .ok (.lineOpenLoopback l) ∧
    decode ⟨0x03#8, .line (0x76#8 :: l)⟩ = .ok (.lineFirmware l) ∧
    decode ⟨0x03#8, .line (0x56#8 :: l)⟩ = .ok (.lineHardware l) ∧
    decode ⟨0x03#8, .line (0x4E#8 :: l)⟩ = .ok (.lineSerial l) ∧
    decode ⟨0x03#8, .line (0x7A#8 :: l)⟩ = .ok (.lineAckLower l) ∧
    decode ⟨0x03#8, .line (0x5A#8 :: l)⟩ = .ok (.lineAckUpper l) ∧
    decode ⟨0x03#8, .line (0x07#8 :: l)⟩ = .ok (.byteBell l)

/-- R62: every opcode of its list is illegal whatever the operands, and the instruction answers IllegalOp and nothing else. -/
def Obligations.UnassignedOpcodesAnswerIllegalOp : Prop :=
  ∀ (op : Byte) (o : Operands) (s : State),
    (op = 0x00#8 ∨ (0x04 ≤ op.toNat ∧ op.toNat ≤ 0x0F) ∨ (0x11 ≤ op.toNat ∧ op.toNat ≤ 0x1F) ∨ 0x24 ≤ op.toNat) →
    decode ⟨op, o⟩ = .ok (.illegal op o) ∧ Answers (exec (.illegal op o) s) s 0x06#8 none

/-- A step of the block runs the decoded instruction, and stops by name where the request is typed wrong or the configuration
is not well formed. -/
def Obligations.StepRunsTheDecodedInstruction : Prop :=
  ∀ s : State, s.blockTurn →
    (∀ i, s.cfg.wf = true → decode ⟨s.req.opcode, s.req.operands⟩ = .ok i → step s = exec i s) ∧
    (∀ op, s.cfg.wf = true → decode ⟨s.req.opcode, s.req.operands⟩ = .error (.operandRecordMismatch op) →
      step s = .refused (.operandRecordMismatch op)) ∧
    (s.cfg.wf = false → step s = .fault .configNotWellFormed)

/-- A FRAME_DECODE request is performed as R109 says on whatever line it holds: telling the line's kind apart changes no
answer. -/
def Obligations.FrameDecodeRequestPerformsFrameDecode : Prop :=
  ∀ (s : State) (l : Line), s.blockTurn → s.cfg.wf = true → s.req.opcode = 0x03#8 → s.req.operands = .line l →
    step s = exec (.frameDecode l) s

/-- The word of an opcode-table row, placed where the next step reads it, is performed by that step, in every state with a
well-formed configuration. -/
def Obligations.FetchWordIsPerformedNext : Prop :=
  ∀ (s : State) (w : Nat) (i : Instr), s.cfg.wf = true → decodeTableWord 8 w = some i →
    step (s.withFetchWord 8 w) = exec i (s.withFetchWord 8 w)

/-! ### Every instruction: completion, frame, status -/

/-- R23, R24, R210, R212: every instruction answers in one step, in every state, with a status of R210 and a result exactly
where that status is OK, and changes nothing but RSP and `REQ.valid`. That `REQ.opcode` and `REQ.operands` stay as they were
is DEDUCED (log entry 17); the fields beside the block's are the model's (log entry 7). -/
def Obligations.EveryInstructionAnswers : Prop :=
  ∀ (i : Instr) (s : State), ∃ status result,
    Answers (exec i s) s status result ∧ status.toNat ≤ 6 ∧ (result.isSome ↔ status = 0x00#8)

/-- The frame of every instruction: `CFG`, the request's opcode and operands, the host's moves, the wire, the timing
registers and every register of the target are unchanged. That the request's opcode and operands are is DEDUCED (log
entry 17); the fields beside the block's are the model's (log entry 7). -/
def Obligations.EveryInstructionLeavesTheRest : Prop :=
  ∀ (i : Instr) (s t : State), exec i s = .next t →
    t.cfg = s.cfg ∧ t.req.opcode = s.req.opcode ∧ t.req.operands = s.req.operands ∧ t.host = s.host ∧ t.wire = s.wire ∧
    t.timing = s.timing ∧ ∀ a, t.readTarget a = s.readTarget a

/-- R34: the response depends on `CFG` and the instruction's own operands alone; two states that agree on `CFG` and on nothing
else get the same response. -/
def Obligations.ResponseDependsOnlyOnCfgAndOperands : Prop :=
  ∀ (i : Instr) (s s' t t' : State), s.cfg = s'.cfg → exec i s = .next t → exec i s' = .next t' → t.rsp = t'.rsp

/-- R213: the errors of each operation, by their codes of R210. -/
def Obligations.ErrorsOfEachOperation : Prop :=
  ∀ (s t : State) (r : RawFrame) (l : Line) (b : BitVec 32) (p : IdPattern) (cs : List FilterChain) (w : RegWrite) (op : Byte)
    (o : Operands),
    (exec (.frameMake r) s = .next t → t.rsp.status = 0x00#8 ∨ t.rsp.status = 0x01#8) ∧
    (exec (.frameEncode r) s = .next t → t.rsp.status = 0x00#8 ∨ t.rsp.status = 0x01#8) ∧
    (exec (.frameDecode l) s = .next t → t.rsp.status = 0x00#8 ∨ t.rsp.status = 0x04#8) ∧
    (exec (.baudCompute b) s = .next t → t.rsp.status = 0x00#8 ∨ t.rsp.status = 0x05#8) ∧
    (exec (.maskEncode p) s = .next t → t.rsp.status = 0x00#8) ∧
    (exec (.filterValueEncode p) s = .next t → t.rsp.status = 0x00#8) ∧
    (exec (.filterProgram cs) s = .next t →
      t.rsp.status = 0x00#8 ∨ t.rsp.status = 0x02#8 ∨ t.rsp.status = 0x03#8) ∧
    (exec (.regWriteFormat w) s = .next t → t.rsp.status = 0x00#8) ∧
    (exec (.illegal op o) s = .next t → t.rsp.status = 0x06#8)

/-! ### The frame codec -/

/-- R102: FRAME_MAKE normalises an accepted raw frame and answers InvalidFrame for any other, whatever the configuration. -/
def Obligations.FrameMakeNormalisesOrRejects : Prop :=
  ∀ (r : RawFrame) (s : State),
    (Acceptable s.cfg r → ∃ f, Answers (exec (.frameMake r) s) s 0x00#8 (some (.frame f)) ∧
      f.id.toNat = min r.id.toNat s.cfg.idExtMax.toNat ∧
      (f.ext = true ↔ r.ext = true ∨ s.cfg.idStdMax.toNat < f.id.toNat) ∧ f.rtr = r.rtr ∧ f.dlc.toNat = r.dlc.toNat ∧
      f.data = r.data) ∧
    (¬ Acceptable s.cfg r → Answers (exec (.frameMake r) s) s 0x01#8 none)

/-- R105: FRAME_ENCODE of an accepted raw frame answers the line with the letter of R104, the identifier's digits, the length
digit and two digits for each payload byte, and nothing after them; any other raw frame answers InvalidFrame. -/
def Obligations.FrameEncodeWritesTheLine : Prop :=
  ∀ (r : RawFrame) (s : State), s.cfg.sourceFixed →
    (Acceptable s.cfg r → ∃ l, Answers (exec (.frameEncode r) s) s 0x00#8 (some (.line l)) ∧
      ∀ id ext n, id = min r.id.toNat 0x1FFFFFFF → ext = (r.ext || decide (0x7FF < id)) → n = (if ext then 8 else 3) →
        l.length = 2 + n + (if r.rtr then 0 else 2 * r.data.length) ∧
        l[0]? = some (if ext then (if r.rtr then 0x52#8 else 0x54#8) else (if r.rtr then 0x72#8 else 0x74#8)) ∧
        (∀ k < n, l[1 + k]? = lowerHex[id / 16 ^ (n - 1 - k) % 16]?) ∧
        l[1 + n]? = lowerHex[r.dlc.toNat]? ∧
        (r.rtr = false → ∀ i b, r.data[i]? = some b →
          l[2 + n + 2 * i]? = lowerHex[b.toNat / 16]? ∧ l[3 + n + 2 * i]? = lowerHex[b.toNat % 16]?)) ∧
    (¬ Acceptable s.cfg r → Answers (exec (.frameEncode r) s) s 0x01#8 none)

/-- R106: a line FRAME_ENCODE answers with has the length of R71 for its letter, holds only the letter and lowercase digits,
and no terminator. -/
def Obligations.EncodedLineIsPlainHex : Prop :=
  ∀ (r : RawFrame) (s t : State) (l : Line), s.cfg.sourceFixed → s.cfg.textual → exec (.frameEncode r) s = .next t →
    t.rsp.result = some (.line l) →
    ∃ b rest, l = b :: rest ∧ (∀ d ∈ rest, d ∈ lowerHex) ∧ s.cfg.lineTerm ∉ l ∧
      ((b = 0x74#8 ∧ l.length = 5 + 2 * r.dlc.toNat) ∨ (b = 0x72#8 ∧ l.length = 5) ∨
        (b = 0x54#8 ∧ l.length = 10 + 2 * r.dlc.toNat) ∨ (b = 0x52#8 ∧ l.length = 10))

/-- R109: FRAME_DECODE of a line that begins with `t`, `r`, `T` or `R` answers the frame its fields give, and of any other
line NotAFrame. -/
def Obligations.FrameDecodeReadsTheFields : Prop :=
  ∀ (s : State), s.cfg.sourceFixed →
    (∀ rest, (∃ f, Answers (exec (.frameDecode (0x74#8 :: rest)) s) s 0x00#8 (some (.frame f)) ∧
      DecodesTo s.cfg (0x74#8 :: rest) 3 false false f)) ∧
    (∀ rest, (∃ f, Answers (exec (.frameDecode (0x72#8 :: rest)) s) s 0x00#8 (some (.frame f)) ∧
      DecodesTo s.cfg (0x72#8 :: rest) 3 false true f)) ∧
    (∀ rest, (∃ f, Answers (exec (.frameDecode (0x54#8 :: rest)) s) s 0x00#8 (some (.frame f)) ∧
      DecodesTo s.cfg (0x54#8 :: rest) 8 true false f)) ∧
    (∀ rest, (∃ f, Answers (exec (.frameDecode (0x52#8 :: rest)) s) s 0x00#8 (some (.frame f)) ∧
      DecodesTo s.cfg (0x52#8 :: rest) 8 true true f)) ∧
    ∀ l : Line, l.head? ≠ some 0x74#8 → l.head? ≠ some 0x72#8 → l.head? ≠ some 0x54#8 → l.head? ≠ some 0x52#8 →
      Answers (exec (.frameDecode l) s) s 0x04#8 none

/-- R72 to R75 read back: the four frame line kinds answer the frame of their fields (LINE_t, LINE_r, LINE_T, LINE_R). -/
def Obligations.FrameLineKindsAnswerTheirFrame : Prop :=
  ∀ (rest : Line) (s : State), s.cfg.sourceFixed →
    (∃ f, Answers (exec (.lineStdData rest) s) s 0x00#8 (some (.frame f)) ∧
      DecodesTo s.cfg (0x74#8 :: rest) 3 false false f) ∧
    (∃ f, Answers (exec (.lineStdRemote rest) s) s 0x00#8 (some (.frame f)) ∧
      DecodesTo s.cfg (0x72#8 :: rest) 3 false true f) ∧
    (∃ f, Answers (exec (.lineExtData rest) s) s 0x00#8 (some (.frame f)) ∧
      DecodesTo s.cfg (0x54#8 :: rest) 8 true false f) ∧
    (∃ f, Answers (exec (.lineExtRemote rest) s) s 0x00#8 (some (.frame f)) ∧
      DecodesTo s.cfg (0x52#8 :: rest) 8 true true f)

/-- R80 to R89: a line of any other kind answers NotAFrame (LINE_S, LINE_s, LINE_W, LINE_C, LINE_O, LINE_L, LINE_l, LINE_v,
LINE_V, LINE_N, LINE_z, LINE_Z, BYTE_BELL), whatever follows its first byte and whatever the configuration. -/
def Obligations.OtherLineKindsAnswerNotAFrame : Prop :=
  ∀ (rest : Line) (s : State),
    ∀ i ∈ [Instr.linePreset rest, .lineTiming rest, .lineRegWrite rest, .lineClose rest, .lineOpenActive rest,
      .lineOpenListen rest, .lineOpenLoopback rest, .lineFirmware rest, .lineHardware rest, .lineSerial rest,
      .lineAckLower rest, .lineAckUpper rest, .byteBell rest],
    Answers (exec i s) s 0x04#8 none

/-- R116: FRAME_ENCODE of a frame that meets the invariants of R25 answers a line, and FRAME_DECODE of that line, in any state
with the same configuration, answers the frame. -/
def Obligations.EncodeThenDecodeReturnsTheFrame : Prop :=
  ∀ (f : Frame) (s : State), s.cfg.sourceFixed → f.legal s.cfg →
    ∃ l, Answers (exec (.frameEncode f.toRaw) s) s 0x00#8 (some (.line l)) ∧
      ∀ s' : State, s'.cfg = s.cfg → Answers (exec (.frameDecode l) s') s' 0x00#8 (some (.frame f))

/-- R115: FRAME_DECODE never raises InvalidFrame; a line that begins as a frame line always decodes. -/
def Obligations.FrameDecodeNeverInvalidFrame : Prop :=
  ∀ (l : Line) (s t : State), exec (.frameDecode l) s = .next t →
    t.rsp.status ≠ 0x01#8 ∧
    (l.head? = some 0x74#8 ∨ l.head? = some 0x72#8 ∨ l.head? = some 0x54#8 ∨ l.head? = some 0x52#8 →
      t.rsp.status = 0x00#8)

/-- R25, R102, R113: every frame any instruction answers with meets the invariants of a frame, whatever the configuration. -/
def Obligations.AnsweredFramesMeetTheInvariants : Prop :=
  ∀ (i : Instr) (s t : State) (f : Frame), exec i s = .next t → t.rsp.result = some (.frame f) → f.legal s.cfg

/-- R110: a length digit above 8 decodes to 8, in each of the four frame line kinds. -/
def Obligations.LengthDigitIsCapped : Prop :=
  ∀ (b d : Byte) (ids rest : Line) (v : Nat) (s t : State), s.cfg.sourceFixed →
    ((b = 0x74#8 ∨ b = 0x72#8) ∧ ids.length = 3 ∨ (b = 0x54#8 ∨ b = 0x52#8) ∧ ids.length = 8) →
    digitValue d = some v → 9 ≤ v → exec (.frameDecode (b :: (ids ++ d :: rest))) s = .next t →
    ∃ f, t.rsp.result = some (.frame f) ∧ f.dlc.toNat = 8

/-- R112: bytes beyond the last field are ignored: a line long enough for its fields decodes as it does with any bytes after
it. -/
def Obligations.BytesAfterTheLastFieldAreIgnored : Prop :=
  ∀ (l extra : Line) (s : State) (n : Nat) (f : Frame), s.cfg.sourceFixed →
    ((l.head? = some 0x74#8 ∨ l.head? = some 0x72#8) ∧ n = 3 ∨ (l.head? = some 0x54#8 ∨ l.head? = some 0x52#8) ∧ n = 8) →
    Answers (exec (.frameDecode l) s) s 0x00#8 (some (.frame f)) →
    2 + n + (if f.rtr then 0 else 2 * f.dlc.toNat) ≤ l.length →
    Answers (exec (.frameDecode (l ++ extra)) s) s 0x00#8 (some (.frame f))

/-- R107, R117: an identifier field with a byte that is no hex digit decodes as the field of zeros does, and the rest of the
line is still read. -/
def Obligations.MalformedIdentifierReadsAsZero : Prop :=
  ∀ (ids rest : Line) (s : State), s.cfg.sourceFixed → (∃ d ∈ ids, digitValue d = none) →
    (ids.length = 3 →
      exec (.lineStdData (ids ++ rest)) s = exec (.lineStdData (List.replicate 3 0x30#8 ++ rest)) s ∧
      exec (.lineStdRemote (ids ++ rest)) s = exec (.lineStdRemote (List.replicate 3 0x30#8 ++ rest)) s) ∧
    (ids.length = 8 →
      exec (.lineExtData (ids ++ rest)) s = exec (.lineExtData (List.replicate 8 0x30#8 ++ rest)) s ∧
      exec (.lineExtRemote (ids ++ rest)) s = exec (.lineExtRemote (List.replicate 8 0x30#8 ++ rest)) s)

/-- R76: a frame line reads the same with its digits A to F written a to f. -/
def Obligations.FrameDecodeIgnoresDigitCase : Prop :=
  ∀ (b : Byte) (rest : Line) (s : State),
    exec (.frameDecode (b :: rest)) s =
      exec (.frameDecode (b :: rest.map fun d => if 0x41 ≤ d.toNat ∧ d.toNat ≤ 0x46 then d + 0x20#8 else d)) s

/-! ### The bit-timing calculator -/

/-- R141: a rate of zero answers BadBaud, and every other rate is computed. -/
def Obligations.OnlyZeroBaudIsRefused : Prop :=
  ∀ (b : BitVec 32) (s : State),
    (b = 0#32 → Answers (exec (.baudCompute b) s) s 0x05#8 none) ∧
    (b ≠ 0#32 → ∃ r, Answers (exec (.baudCompute b) s) s 0x00#8 (some (.baud r)))

/-- R142: a preset rate answers its preset line, with no search. -/
def Obligations.PresetRateAnswersItsLine : Prop :=
  ∀ (i : Fin 9) (s : State), s.cfg.wf = true → s.cfg.presetRates[i] ≠ 0#32 →
    Answers (exec (.baudCompute s.cfg.presetRates[i]) s) s 0x00#8
      (some (.baud (.preset i [0x53#8, s.cfg.presetChar[i]])))

/-- R143 to R148: any other rate answers the smallest bit time among those whose rounded and clamped divisor comes nearest to
`floor(OSC_HZ / baud)`. `1 ≤ X_MIN` keeps the division defined; with `X_MIN = 0`, which R3 admits, the divisor of the
candidate 0 is a free value (log entry 8). -/
def Obligations.CustomRateAnswersTheFirstNearest : Prop :=
  ∀ (b : BitVec 32) (s : State), s.cfg.wf = true → 1 ≤ s.cfg.xMin.toNat → b ≠ 0#32 → (∀ i : Fin 9, s.cfg.presetRates[i] ≠ b) →
    ∃ k, Answers (exec (.baudCompute b) s) s 0x00#8 (some (.baud (.custom k))) ∧
      k.xdesired = s.cfg.oscHz.toNat / b.toNat ∧ s.cfg.xMin.toNat ≤ k.x ∧ k.x ≤ s.cfg.xMax.toNat ∧
      IsDivisor s.cfg k.xdesired k.x k.xbrp ∧ k.diff = distance k.xdesired k.x k.xbrp ∧
      ∀ y z, s.cfg.xMin.toNat ≤ y → y ≤ s.cfg.xMax.toNat → IsDivisor s.cfg k.xdesired y z →
        k.diff ≤ distance k.xdesired y z ∧ (y < k.x → k.diff < distance k.xdesired y z)

/-- R146, R149, R150 and the ranges of R152: the fields of a custom result and its line; under the values the source fixes,
with the numbers of the rules. -/
def Obligations.CustomResultFieldsAndLine : Prop :=
  ∀ (b : BitVec 32) (s t : State) (k : CustomTiming), s.cfg.wf = true → 1 ≤ s.cfg.xMin.toNat →
    exec (.baudCompute b) s = .next t → t.rsp.result = some (.baud (.custom k)) →
    k.legal s.cfg ∧
    (s.cfg.sourceFixed →
      11 ≤ k.x ∧ k.x ≤ 23 ∧ 2 ≤ k.xbrp ∧ k.xbrp ≤ 128 ∧ k.xbrp % 2 = 0 ∧ k.brp.toNat = k.xbrp / 2 - 1 ∧
      k.cnf1 = k.brp.setWidth 8 ||| 0xC0#8 ∧ 0xC0 ≤ k.cnf1.toNat ∧ s.cfg.cnfTable[k.x - 11]? = some k.cnf23 ∧
      k.line.length = 7)

/-- R151: where the rate divides the oscillator's frequency and the search leaves no distance, the achieved rate is the rate
asked for. The formula is the spec's from general knowledge (G11, log entry 18). -/
def Obligations.NoDistanceMeansTheExactRate : Prop :=
  ∀ (b : BitVec 32) (s t : State) (k : CustomTiming), s.cfg.wf = true → 1 ≤ s.cfg.xMin.toNat →
    b.toNat ∣ s.cfg.oscHz.toNat → exec (.baudCompute b) s = .next t → t.rsp.result = some (.baud (.custom k)) →
    k.diff = 0 → k.achievedRate s.cfg = (b.toNat : Rat)

/-- R248: a preset rate is answered with an `S` line, the same whatever `OSC_HZ` is. -/
def Obligations.PresetAnswerIgnoresTheOscillator : Prop :=
  ∀ (i : Fin 9) (s s' t t' : State) (hz : BitVec 32), s'.cfg = { s.cfg with oscHz := hz } → s.cfg.presetRates[i] ≠ 0#32 →
    exec (.baudCompute s.cfg.presetRates[i]) s = .next t → exec (.baudCompute s.cfg.presetRates[i]) s' = .next t' →
    t.rsp = t'.rsp ∧ ∃ j, t.rsp.result = some (.baud (.preset j [0x53#8, s.cfg.presetChar[j]]))

/-- R140, its corner case: a rate above the oscillator's gives `xdesired = 0`, and the first candidate, x = 11 with the divisor
2, wins with the distance 22. -/
def Obligations.RateAboveOscillatorSaturates : Prop :=
  ∀ (b : BitVec 32) (s : State), s.cfg.wf = true → s.cfg.sourceFixed → s.cfg.oscHz.toNat < b.toNat →
    (∀ i : Fin 9, s.cfg.presetRates[i] ≠ b) →
    ∃ k, Answers (exec (.baudCompute b) s) s 0x00#8 (some (.baud (.custom k))) ∧ k.xdesired = 0 ∧ k.x = 11 ∧ k.xbrp = 2 ∧
      k.brp = 0#6 ∧ k.cnf1 = 0xC0#8 ∧ k.diff = 22

/-! ### The filter register encoder -/

/-- R172: MASK_ENCODE answers the tuple of R92 or R93 bit by bit, bit 3 of b1 clear, for every id pattern. -/
def Obligations.MaskTupleBits : Prop :=
  ∀ (p : IdPattern) (s : State), ∃ t, Answers (exec (.maskEncode p) s) s 0x00#8 (some (.tuple t)) ∧ TupleBits p false t

/-- R173: FILTER_VALUE_ENCODE answers the tuple of R92 or R93 bit by bit, bit 3 of b1 set in the extended layout alone. -/
def Obligations.FilterValueTupleBits : Prop :=
  ∀ (p : IdPattern) (s : State), s.cfg.sourceFixed →
    ∃ t, Answers (exec (.filterValueEncode p) s) s 0x00#8 (some (.tuple t)) ∧ TupleBits p true t

/-- R174, R176, R179, R214: the bounds of FILTER_PROGRAM and the order they are checked in; within them it answers a program. -/
def Obligations.FilterProgramBounds : Prop :=
  ∀ (s : State), s.cfg.sourceFixed →
    (∀ cs, 2 < cs.length → Answers (exec (.filterProgram cs) s) s 0x02#8 none) ∧
    (∀ a : FilterChain, 4 < a.filters.length → Answers (exec (.filterProgram [a]) s) s 0x03#8 none) ∧
    (∀ a b : FilterChain, 2 < min a.filters.length b.filters.length ∨ 4 < max a.filters.length b.filters.length →
      Answers (exec (.filterProgram [a, b]) s) s 0x03#8 none) ∧
    (∀ a : FilterChain, a.filters.length ≤ 4 →
      ∃ ws ls, Answers (exec (.filterProgram [a]) s) s 0x00#8 (some (.program ws ls))) ∧
    (∀ a b : FilterChain, min a.filters.length b.filters.length ≤ 2 → max a.filters.length b.filters.length ≤ 4 →
      ∃ ws ls, Answers (exec (.filterProgram [a, b]) s) s 0x00#8 (some (.program ws ls)))

/-- R175: with no chain, the four bytes of slot 0's mask and then of slot 1's are written zero, and no filter register. -/
def Obligations.NoChainZeroesBothMasks : Prop :=
  ∀ (s : State), s.cfg.sourceFixed →
    ∃ ls, Answers (exec (.filterProgram []) s) s 0x00#8 (some (.program
      [⟨s.cfg.maskBase0, 0⟩, ⟨s.cfg.maskBase0 + 1, 0⟩, ⟨s.cfg.maskBase0 + 2, 0⟩, ⟨s.cfg.maskBase0 + 3, 0⟩,
        ⟨s.cfg.maskBase0 + 4, 0⟩, ⟨s.cfg.maskBase0 + 5, 0⟩, ⟨s.cfg.maskBase0 + 6, 0⟩, ⟨s.cfg.maskBase0 + 7, 0⟩] ls))

/-- R177 to R181: the write list of one or two accepted chains. Slot 0 takes the chain with fewer filters, both take a single
one; each slot's mask comes before its filter registers, unused ones are zero, and byte k goes to base + k. -/
def Obligations.FilterProgramLayout : Prop :=
  ∀ (s : State) (cs : List FilterChain) (c0 c1 : FilterChain), s.cfg.sourceFixed →
    (cs = [c0] ∧ c1 = c0 ∧ c0.filters.length ≤ 4 ∨
      (cs = [c0, c1] ∧ c0.filters.length ≤ c1.filters.length ∨ cs = [c1, c0] ∧ c0.filters.length < c1.filters.length) ∧
        c0.filters.length ≤ 2 ∧ c1.filters.length ≤ 4) →
    ∃ ws ls, Answers (exec (.filterProgram cs) s) s 0x00#8 (some (.program ws ls)) ∧ ws.length = 32 ∧
      (∃ t, TupleBits c0.mask false t ∧ WritesTuple (ws.take 4) s.cfg.maskBase0 t) ∧
      (∀ (i : Nat) (h : i < 2), WritesFilter ((ws.drop (4 + 4 * i)).take 4) s.cfg.filterBase[i] c0.filters i) ∧
      (∃ t, TupleBits c1.mask false t ∧ WritesTuple ((ws.drop 12).take 4) (s.cfg.maskBase0 + 4) t) ∧
      ∀ (i : Nat) (h : i < 4), WritesFilter ((ws.drop (16 + 4 * i)).take 4) s.cfg.filterBase[2 + i] c1.filters i

/-- R183, R184: a program's lines are its writes' `W` lines, one each and in their order. -/
def Obligations.ProgramLinesMatchWrites : Prop :=
  ∀ (i : Instr) (s t : State) (ws : List RegWrite) (ls : List Line), exec i s = .next t →
    t.rsp.result = some (.program ws ls) →
    ls.length = ws.length ∧ ∀ (k : Nat) (w : RegWrite), ws[k]? = some w →
      ls[k]? = some (0x57#8 :: (twoDigits w.addr ++ twoDigits w.value))

/-- R182: 8 writes with no chain, 32 to distinct addresses with one or two, under the parameters of R2; and none with an
error. -/
def Obligations.ProgramWriteCounts : Prop :=
  ∀ (cs : List FilterChain) (s t : State), s.cfg = State.reset.cfg → exec (.filterProgram cs) s = .next t →
    (t.rsp.status ≠ 0x00#8 → t.rsp.result = none) ∧
    ∀ ws ls, t.rsp.result = some (.program ws ls) →
      (cs = [] → ws.length = 8) ∧ (cs ≠ [] → ws.length = 32) ∧ (ws.map RegWrite.addr).Nodup

/-- R178: two chains of different lengths are programmed alike in either order. -/
def Obligations.ChainOrderDoesNotMatter : Prop :=
  ∀ (a b : FilterChain) (s t t' : State), a.filters.length ≠ b.filters.length → exec (.filterProgram [a, b]) s = .next t →
    exec (.filterProgram [b, a]) s = .next t' → t.rsp = t'.rsp

/-- R184: REG_WRITE_FORMAT answers `W`, the address's two digits and the value's two digits, for every address and value. -/
def Obligations.RegWriteFormatLine : Prop :=
  ∀ (w : RegWrite) (s : State),
    Answers (exec (.regWriteFormat w) s) s 0x00#8 (some (.line (0x57#8 :: (twoDigits w.addr ++ twoDigits w.value))))

/-! ### The request register, the wire and the target -/

/-- R24: a step of the block that goes on has consumed the request and written a response, and changed nothing else. That the
rest of REQ is unchanged is DEDUCED (log entry 17); the host's moves, the wire and the target are the model's (log
entry 7). -/
def Obligations.BlockStepConsumesTheRequest : Prop :=
  ∀ s t : State, s.blockTurn → step s = .next t →
    t.req = { s.req with valid := false } ∧ t.rsp.valid = true ∧ t.cfg = s.cfg ∧ t.host = s.host ∧ t.wire = s.wire ∧
    t.timing = s.timing ∧ ∀ a, t.readTarget a = s.readTarget a

/-- R22: the host's request is placed while no request stands, and sets `REQ.valid`; while one stands, the host's moves wait. -/
def Obligations.HostPlacesARequestOnlyWhenNoneStands : Prop :=
  (∀ (s : State) (op : Byte) (o : Operands) (moves : List HostMove), s.hostTurn → s.host = .request op o :: moves →
    step s = .next { s with host := moves, req := { valid := true, opcode := op, operands := o } }) ∧
  (∀ s t : State, s.blockTurn → step s = .next t → t.host = s.host)

/-- R24: "When `REQ.valid = 0` the block has no step": with no request, no line and no move the machine is stuck. -/
def Obligations.NoRequestNoStep : Prop :=
  ∀ s : State, s.hostTurn → s.host = [] → step s = .fault .noRequest

/-- R37: RSP is changed by a step of the block and by a reset alone. -/
def Obligations.ResponsePersists : Prop :=
  ∀ s t : State, s.req.valid = false → s.host.head? ≠ some .reset → step s = .next t → t.rsp = s.rsp

/-- R32: no step changes `CFG`. -/
def Obligations.ConfigurationNeverChanges : Prop :=
  ∀ s t : State, step s = .next t → t.cfg = s.cfg

/-- R240, R241 (and log entries 1 and 5, the model's choices): a reset clears both valid bits, so a request that stands is lost,
keeps `CFG`, and touches neither the target's registers nor the wire. -/
def Obligations.ResetLosesTheRequestAndSparesTheTarget : Prop :=
  ∀ (s : State) (moves : List HostMove), s.host = .reset :: moves →
    ∃ t, step s = .next t ∧ t.req.valid = false ∧ t.rsp.valid = false ∧ t.cfg = s.cfg ∧ t.host = moves ∧ t.wire = s.wire ∧
      t.timing = s.timing ∧ ∀ a, t.readTarget a = s.readTarget a

/-- R41, R44, R50: the target performs a `W` line as one byte written to one register; every other register, and everything
else, is unchanged. The register space is in its canonical form, which every step keeps (`StepKeepsInvariant`). -/
def Obligations.TargetPerformsARegisterWrite : Prop :=
  ∀ (s : State) (w : RegWrite) (rest : List Byte),
    s.lineTurn (0x57#8 :: (twoDigits w.addr ++ twoDigits w.value)) rest → Memory.wf s.target = true →
    ∃ t, step s = .next t ∧ t.readTarget w.addr = w.value ∧ (∀ a, a ≠ w.addr → t.readTarget a = s.readTarget a) ∧
      t.wire = rest ∧ t.cfg = s.cfg ∧ t.req = s.req ∧ t.rsp = s.rsp ∧ t.host = s.host ∧ t.timing = s.timing

/-- R47: an `s` line sets the three timing registers, CNF1 first; no register of the register space changes (R52). -/
def Obligations.TargetTakesATimingLine : Prop :=
  ∀ (s : State) (b1 b2 b3 : Byte) (rest : List Byte),
    s.lineTurn (0x73#8 :: (twoDigits b1 ++ twoDigits b2 ++ twoDigits b3)) rest →
    step s = .next { s with wire := rest, timing := ⟨b1, b2, b3⟩ }

/-- R248 and log entry 12: an `S` line sets the three timing registers to values the spec does not give and the model leaves
free; the line is taken off the wire and nothing else changes. -/
def Obligations.TargetTakesAPresetLine : Prop :=
  ∀ (s : State) (i : Fin 9) (rest : List Byte), s.lineTurn [0x53#8, s.cfg.presetChar[i]] rest →
    ∃ timing, step s = .next { s with wire := rest, timing := timing }

/-- R52: a line that is no `W` line writes no register of the register space, and leaves the block and the host's moves as they
are; one that is no `s` or `S` line either is performed, and only taken off the wire, so that the timing registers too are
as they were (log entry 15). -/
def Obligations.OtherLinesWriteNoRegister : Prop :=
  ∀ (s : State) (l : Line) (rest : List Byte), s.lineTurn l rest → l.head? ≠ some 0x57#8 →
    (∀ t, step s = .next t → t.wire = rest ∧ t.cfg = s.cfg ∧ t.req = s.req ∧ t.rsp = s.rsp ∧ t.host = s.host ∧
      ∀ a, t.readTarget a = s.readTarget a) ∧
    (l.head? ≠ some 0x73#8 → l.head? ≠ some 0x53#8 → step s = .next { s with wire := rest })

/-- R52 with R244: the host sends a FILTER_PROGRAM's lines and the target performs them in list order, one a step: after them
every register written holds the last value written to it, every other is as before, and the block is as before. The host's
moves are the model's (log entry 7), as is a register that holds what was last written to it (log entry 21). -/
def Obligations.SentProgramReachesTheTarget : Prop :=
  ∀ (s : State) (ws : List RegWrite) (moves : List HostMove), s.hostTurn → s.wire = [] → s.cfg.textual →
    Memory.wf s.target = true → s.host = .send :: moves → moves.head? ≠ some .reset → s.rsp.valid = true →
    s.rsp.result = some (.program ws (ws.map fun w => 0x57#8 :: (twoDigits w.addr ++ twoDigits w.value))) →
    ∃ t, core.run (1 + ws.length) s = .next t ∧ t.wire = [] ∧ t.host = moves ∧ t.cfg = s.cfg ∧ t.req = s.req ∧
      t.rsp = s.rsp ∧ t.timing = s.timing ∧
      (∀ a, (∀ w ∈ ws, w.addr ≠ a) → t.readTarget a = s.readTarget a) ∧
      ∀ pre w post, ws = pre ++ w :: post → (∀ w' ∈ post, w'.addr ≠ w.addr) → t.readTarget w.addr = w.value

/-- R51: writing a list of registers twice leaves the register space as writing it once does. -/
def Obligations.RewritingAListChangesNothing : Prop :=
  ∀ (m : Memory) (ws : List RegWrite), Memory.wf m = true →
    (ws ++ ws).foldl (fun m w => Memory.write m w.addr.toNat w.value) m =
      ws.foldl (fun m w => Memory.write m w.addr.toNat w.value) m
end

