-- ==== Sys2Proof/Laws/Text.lean ====
section
/-! SUPPORT. Hex numerals: the writer's digits and length, the reader on the writer's numerals, and the field reader against
its description in Safety.lean. -/

namespace Sys2Proof.Machine

theorem lowerHex_getElem? {d : Nat} (h : d < 16) : lowerHex[d]? = some (hexDigit d) := by
  have : ∀ d : Fin 16, lowerHex[d.val]? = some (hexDigit d.val) := by decide
  exact this ⟨d, h⟩

theorem hexDigit_mem {d : Nat} (h : d < 16) : hexDigit d ∈ lowerHex := List.mem_of_getElem? (lowerHex_getElem? h)

theorem hexval_hexDigit {d : Nat} (h : d < 16) : hexval (hexDigit d) = some d := by
  have : ∀ d : Fin 16, hexval (hexDigit d.val) = some d.val := by decide
  exact this ⟨d, h⟩

theorem lowerHex_printable : Printable lowerHex := by unfold Printable; decide

set_option maxRecDepth 4000 in
theorem hexval_eq_digitValue (b : Byte) : hexval b = digitValue b := by
  have : ∀ n : Fin 256, hexval (BitVec.ofNat 8 n.val) = digitValue (BitVec.ofNat 8 n.val) := by decide
  have h := this ⟨b.toNat, b.isLt⟩
  simpa using h

theorem hexval_lt {b : Byte} {d : Nat} (h : hexval b = some d) : d < 16 := by
  simp only [hexval] at h
  repeat' split at h
  all_goals first | (cases h; done) | (simp only [Option.some.injEq] at h; omega)

@[simp] theorem hexDigits_length (v n : Nat) : (hexDigits v n).length = n := by
  induction n generalizing v with
  | zero => rfl
  | succ n ih => simp [hexDigits, ih]

theorem hexDigits_mem {v n : Nat} : ∀ d ∈ hexDigits v n, d ∈ lowerHex := by
  induction n generalizing v with
  | zero => simp [hexDigits]
  | succ n ih =>
    intro d hd
    rcases List.mem_append.mp hd with hd | hd
    · exact ih d hd
    · simp only [List.mem_singleton] at hd
      exact hd ▸ hexDigit_mem (Nat.mod_lt _ (by decide))

/-- Digit k of an n-digit numeral, from the most significant. -/
theorem hexDigits_getElem? {v n k : Nat} (h : k < n) :
    (hexDigits v n)[k]? = lowerHex[v / 16 ^ (n - 1 - k) % 16]? := by
  rw [lowerHex_getElem? (Nat.mod_lt _ (by decide))]
  induction n generalizing v with
  | zero => omega
  | succ n ih =>
    rw [hexDigits]
    rcases Nat.lt_or_ge k n with hk | hk
    · rw [List.getElem?_append_left (by simpa using hk), ih hk, Nat.div_div_eq_div_mul]
      congr 4
      rw [← Nat.pow_succ']
      congr 1
      omega
    · have : k = n := by omega
      subst this
      simp

theorem digitsIn_succ (base v n : Nat) : digitsIn base v (n + 1) = digitsIn base (v / base) n ++ [v % base] := by
  rw [digitsIn, List.range_succ, List.map_append, digitsIn]
  congr 1
  · refine List.map_congr_left fun k hk => ?_
    have hk := List.mem_range.mp hk
    rw [Nat.div_div_eq_div_mul, ← Nat.pow_succ']
    congr 3
    omega
  · simp

/-- The writer's numeral is the text of its digits. -/
theorem digitText_lowerHex (v n : Nat) : digitText lowerHex (digitsIn 16 v n) = hexDigits v n := by
  induction n generalizing v with
  | zero => rfl
  | succ n ih =>
    have : lowerHex.getD (v % 16) 0#8 = hexDigit (v % 16) := by
      rw [List.getD, lowerHex_getElem? (Nat.mod_lt _ (by decide))]; rfl
    rw [digitsIn_succ, hexDigits, ← ih, digitText, List.map_append, List.map_singleton, this]; rfl

theorem numeral_append (acc : Nat) (l l' : Line) :
    numeral acc (l ++ l') = (numeral acc l).bind fun v => numeral v l' := by
  induction l generalizing acc with
  | nil => rfl
  | cons c l ih =>
    simp only [List.cons_append, numeral]
    split
    · exact ih _
    · rfl

/-- The reader reads back what the writer wrote. -/
theorem numeral_hexDigits (acc : Nat) {v n : Nat} (h : v < 16 ^ n) :
    numeral acc (hexDigits v n) = some (acc * 16 ^ n + v) := by
  induction n generalizing v acc with
  | zero => simp [hexDigits, numeral] at h ⊢; omega
  | succ n ih =>
    have hv : v / 16 < 16 ^ n := by rw [Nat.div_lt_iff_lt_mul (by decide), ← Nat.pow_succ]; exact h
    have hm : hexval (hexDigit (v % 16)) = some (v % 16) := hexval_hexDigit (Nat.mod_lt _ (by decide))
    rw [hexDigits, numeral_append, ih acc hv]
    simp only [Option.bind_some, numeral, hm, Option.some.injEq]
    have hp : 16 ^ (n + 1) = 16 ^ n * 16 := Nat.pow_succ ..
    rw [hp, ← Nat.mul_assoc]
    omega

theorem hex_of_lt {v n : Nat} (h : v < 16 ^ n) : hex v n = hexDigits v n := if_pos h

theorem hex_two (b : Byte) : hex b.toNat 2 = twoDigits b := by
  have : ∀ n : Fin 256, hex n.val 2 = twoDigits (BitVec.ofNat 8 n.val) := by
    intro n
    have hn : n.val < 16 ^ 2 := n.isLt
    have h1 : n.val / 16 < 16 := by omega
    have h2 : n.val % 16 < 16 := Nat.mod_lt _ (by decide)
    rw [hex_of_lt hn]
    simp [hexDigits, twoDigits, List.getD, lowerHex_getElem? h1, lowerHex_getElem? h2, Nat.mod_eq_of_lt h1]
  simpa using this ⟨b.toNat, b.isLt⟩

theorem hex_four (v : BitVec 16) : hex v.toNat 4 = twoDigits ((v >>> 8).setWidth 8) ++ twoDigits (v.setWidth 8) := by
  have hv : v.toNat < 65536 := v.isLt
  have e1 : ((v >>> 8).setWidth 8 : Byte).toNat = v.toNat / 256 := by
    simp [Nat.shiftRight_eq_div_pow]; omega
  have e2 : (v.setWidth 8 : Byte).toNat = v.toNat % 256 := by simp
  rw [hex_of_lt (by simpa using hv)]
  have q1 : v.toNat / 16 / 16 / 16 % 16 = v.toNat / 256 / 16 := by omega
  have q2 : v.toNat / 16 / 16 % 16 = v.toNat / 256 % 16 := by omega
  have q3 : v.toNat / 16 % 16 = v.toNat % 256 / 16 := by omega
  have q4 : v.toNat % 16 = v.toNat % 256 % 16 := by omega
  simp only [hexDigits, twoDigits, e1, e2, List.nil_append, List.cons_append, List.getD, q1, q2, q3, q4]
  rw [lowerHex_getElem? (by omega), lowerHex_getElem? (by omega), lowerHex_getElem? (by omega), lowerHex_getElem? (by omega)]
  rfl

theorem twoDigits_mem {b d : Byte} (h : d ∈ twoDigits b) : d ∈ lowerHex := by
  rw [← hex_two, hex_of_lt (by have := b.isLt; omega)] at h
  exact hexDigits_mem d h

theorem twoDigits_length (b : Byte) : (twoDigits b).length = 2 := rfl

theorem twoDigits_injective {a b : Byte} (h : twoDigits a = twoDigits b) : a = b := by
  have := congrArg (numeral 0) h
  rw [← hex_two, ← hex_two, hex_of_lt (by have := a.isLt; omega), hex_of_lt (by have := b.isLt; omega),
    numeral_hexDigits 0 (by have := a.isLt; omega), numeral_hexDigits 0 (by have := b.isLt; omega)] at this
  simp only [Nat.zero_mul, Nat.zero_add, Option.some.injEq] at this
  exact BitVec.eq_of_toNat_eq this

/-- A field that lies in the middle of a line reads as its numeral. -/
theorem parseField_mid {pre fld post : Line} {off n : Nat} (h1 : pre.length = off) (h2 : fld.length = n) :
    parseField (pre ++ (fld ++ post)) off n = (numeral 0 fld).getD 0 := by
  subst h1 h2
  simp [parseField]

/-- A field the writer wrote reads back its value. -/
theorem parseField_hexDigits {pre post : Line} {off n v : Nat} (h1 : pre.length = off) (hv : v < 16 ^ n) :
    parseField (pre ++ (hexDigits v n ++ post)) off n = v := by
  rw [parseField_mid h1 (hexDigits_length v n), numeral_hexDigits 0 hv]
  simp

/-- The numeral of a list of bytes, by R76. -/
theorem numeral_eq_sum (acc : Nat) (l : Line) :
    numeral acc l =
      if ∀ k < l.length, (digitValue (l.getD k 0#8)).isSome then
        some (acc * 16 ^ l.length
          + ((List.range l.length).map fun k => (digitValue (l.getD k 0#8)).getD 0 * 16 ^ (l.length - 1 - k)).sum)
      else none := by
  induction l generalizing acc with
  | nil => simp [numeral]
  | cons c l ih =>
    simp only [numeral]
    rw [hexval_eq_digitValue]
    cases hc : digitValue c with
    | none =>
      rw [if_neg]
      intro h
      have := h 0 (by simp)
      simp [hc] at this
    | some d =>
      simp only [ih]
      by_cases hl : ∀ k < l.length, (digitValue (l.getD k 0#8)).isSome
      · rw [if_pos hl, if_pos]
        · simp only [List.length_cons, List.range_succ_eq_map, List.map_cons, List.map_map, List.sum_cons, Option.some.injEq]
          have e : (fun k => (digitValue (l.getD k 0#8)).getD 0 * 16 ^ (l.length - 1 - k)) =
              (fun k => (digitValue ((c :: l).getD k 0#8)).getD 0 * 16 ^ (l.length + 1 - 1 - k)) ∘ Nat.succ := by
            funext k
            have hk : l.length + 1 - 1 - (k + 1) = l.length - 1 - k := by omega
            simp only [Function.comp, Nat.succ_eq_add_one, List.getD_cons_succ, hk]
          rw [e]
          simp only [List.getD_cons_zero, hc, Option.getD_some, Nat.add_sub_cancel, Nat.sub_zero, Nat.pow_succ]
          ring
        · intro k hk
          cases k with
          | zero => simp [hc]
          | succ k => simpa using hl k (by simpa using hk)
      · rw [if_neg hl, if_neg]
        intro h
        refine hl fun k hk => ?_
        simpa using h (k + 1) (by simpa using hk)

/-- The field reader is what R107 says. -/
theorem parseField_eq (l : Line) (off n : Nat) : parseField l off n = fieldValue l off n := by
  unfold parseField fieldValue
  by_cases h : off + n ≤ l.length
  · have hlen : ((l.drop off).take n).length = n := by simp; omega
    have hget : ∀ k < n, ((l.drop off).take n).getD k 0#8 = l.getD (off + k) 0#8 := by
      intro k hk
      simp [List.getD, hk, List.getElem?_drop]
    rw [if_neg (by omega), numeral_eq_sum, hlen]
    by_cases hd : ∀ k < n, (digitValue (l.getD (off + k) 0#8)).isSome
    · rw [if_pos, if_pos ⟨h, hd⟩]
      · simp only [Nat.zero_mul, Nat.zero_add, Option.getD_some]
        congr 1
        refine List.map_congr_left fun k hk => ?_
        rw [hget k (List.mem_range.mp hk)]
      · intro k hk
        rw [hget k hk]
        exact hd k hk
    · rw [if_neg, if_neg fun hh => hd hh.2]
      · rfl
      · intro hh
        exact hd fun k hk => hget k hk ▸ hh k hk
  · rw [if_pos (by omega), if_neg fun hh => h hh.1]

theorem numeral_lt {l : Line} {acc v : Nat} (h : numeral acc l = some v) : v < (acc + 1) * 16 ^ l.length := by
  induction l generalizing acc with
  | nil => simp [numeral] at h; simp; omega
  | cons c l ih =>
    simp only [numeral] at h
    split at h
    · rename_i d hd
      have h1 := ih h
      have h2 : acc * 16 + d + 1 ≤ (acc + 1) * 16 := by have := hexval_lt hd; omega
      calc v < (acc * 16 + d + 1) * 16 ^ l.length := h1
        _ ≤ ((acc + 1) * 16) * 16 ^ l.length := Nat.mul_le_mul_right _ h2
        _ = (acc + 1) * 16 ^ (l.length + 1) := by rw [Nat.pow_succ]; ring
    · cases h

theorem parseField_lt (l : Line) (off n : Nat) : parseField l off n < 16 ^ n := by
  unfold parseField
  split
  · positivity
  · cases h : numeral 0 ((l.drop off).take n) with
    | none => simp
    | some v =>
      have h1 := numeral_lt h
      have h2 : ((l.drop off).take n).length ≤ n := by simp
      have h3 : (16:Nat) ^ ((l.drop off).take n).length ≤ 16 ^ n := Nat.pow_le_pow_right (by decide) h2
      simp only [Option.getD_some]
      omega

end Sys2Proof.Machine
end

