-- ==== Sys2Proof/Laws/Assembler.lean ====
section
/-! SUPPORT. The assembler on the texts of a request: the value of a number's text, the tokens of a spaced text, and what each
reader reads from the tokens it is written for. -/

namespace Sys2Proof.Machine

/-! ### Numbers -/

theorem numeralIn_append (base acc : Nat) (l l' : Line) :
    numeralIn base acc (l ++ l') = (numeralIn base acc l).bind fun v => numeralIn base v l' := by
  induction l generalizing acc with
  | nil => rfl
  | cons c l ih =>
    simp only [List.cons_append, numeralIn]
    split
    · split
      · exact ih _
      · rfl
    · rfl

/-- A table of digits whose first `base` entries have their places as values. -/
def DigitTable (base : Nat) (table : List Byte) : Prop := ∀ d < base, hexval (table.getD d 0#8) = some d

theorem digitTables :
    DigitTable 16 lowerHex ∧ DigitTable 16 upperHex ∧ DigitTable 2 lowerHex ∧ DigitTable 10 lowerHex := by
  unfold DigitTable; decide

/-- The text of a number's digits has its value. -/
theorem numeralIn_digitText {base : Nat} {table : List Byte} (ht : DigitTable base table) (hb : 1 ≤ base) (acc : Nat) {v n : Nat}
    (h : v < base ^ n) : numeralIn base acc (digitText table (digitsIn base v n)) = some (acc * base ^ n + v) := by
  induction n generalizing v with
  | zero => simp [digitText, digitsIn, numeralIn] at h ⊢; omega
  | succ n ih =>
    have hv : v / base < base ^ n := by rw [Nat.div_lt_iff_lt_mul hb, ← Nat.pow_succ]; exact h
    have hm : v % base < base := Nat.mod_lt _ hb
    rw [digitsIn_succ, digitText, List.map_append, numeralIn_append, ← digitText, ih hv]
    simp only [Option.bind_some, List.map_singleton, numeralIn, ht _ hm, if_pos hm, Option.some.injEq]
    rw [Nat.add_mul, Nat.mul_assoc, ← Nat.pow_succ, Nat.add_assoc, Nat.mul_comm (v / base), Nat.div_add_mod]

theorem digitText_length (table : List Byte) (base v n : Nat) : (digitText table (digitsIn base v n)).length = n := by
  simp [digitText, digitsIn]

/-- The bytes of a number's digits are digits of its table. -/
theorem digitText_forall {base : Nat} {table : List Byte} {P : Byte → Prop} (hb : 1 ≤ base)
    (h : ∀ d < base, P (table.getD d 0#8)) (v n : Nat) : ∀ b ∈ digitText table (digitsIn base v n), P b := by
  intro b hm
  simp only [digitText, digitsIn, List.map_map, List.mem_map] at hm
  obtain ⟨k, -, rfl⟩ := hm
  exact h _ (Nat.mod_lt _ hb)

/-- A text of a number has its value (R4). -/
theorem number_of_numberText {v : Nat} {t : Line} (h : NumberText v t) : number t = some v := by
  obtain ⟨n, hn, h⟩ := h
  obtain ⟨t1, t2, t3, t4⟩ := digitTables
  have ne (table : List Byte) (base : Nat) : (digitText table (digitsIn base v n)).isEmpty = false := by
    rw [Bool.eq_false_iff, ne_eq, List.isEmpty_iff_length_eq_zero, digitText_length]; omega
  have val {base : Nat} {table : List Byte} (ht : DigitTable base table) (hb : 1 ≤ base) (hv : v < base ^ n) :
      numeralIn base 0 (digitText table (digitsIn base v n)) = some v := by
    rw [numeralIn_digitText ht hb 0 hv, Nat.zero_mul, Nat.zero_add]
  rcases h with ⟨hv, rfl | rfl⟩ | ⟨hv, rfl⟩ | ⟨hv, rfl⟩
  · rw [← val t1 (by decide) hv]; simp only [number, ne]; rfl
  · rw [← val t2 (by decide) hv]; simp only [number, ne]; rfl
  · rw [← val t3 (by decide) hv]; simp only [number, ne]; rfl
  · have hd : ∀ b ∈ digitText lowerHex (digitsIn 10 v n), b ≠ ascii 'x' ∧ b ≠ ascii 'b' :=
      digitText_forall (by decide) (by decide) v n
    have hl := digitText_length lowerHex 10 v n
    rw [← val t4 (by decide) hv]
    generalize digitText lowerHex (digitsIn 10 v n) = t at hd hl
    match t with
    | [] => simp at hl; omega
    | [_] => rfl
    | z :: b :: ds =>
      obtain ⟨h1, h2⟩ := hd b (by simp)
      simp [number, h1, h2]

/-- A text of a number is bytes of names and numbers, a digit first. -/
theorem numberText_bytes {v : Nat} {t : Line} (h : NumberText v t) :
    ∃ b w, t = b :: w ∧ isDigit b = true ∧ ∀ c ∈ t, isWordByte c = true := by
  obtain ⟨n, hn, h⟩ := h
  have split {base : Nat} {table : List Byte} (hb : 1 ≤ base) (p : Byte) (hp : isWordByte p = true)
      (h : ∀ d < base, isWordByte (table.getD d 0#8) = true) :
      ∃ b w, 0x30#8 :: p :: digitText table (digitsIn base v n) = b :: w ∧ isDigit b = true ∧
        ∀ c ∈ 0x30#8 :: p :: digitText table (digitsIn base v n), isWordByte c = true :=
    ⟨_, _, rfl, rfl, by
      intro c hc
      rcases List.mem_cons.mp hc with rfl | hc
      · rfl
      · rcases List.mem_cons.mp hc with rfl | hc
        · exact hp
        · exact digitText_forall (P := fun b => isWordByte b = true) hb h v n c hc⟩
  rcases h with ⟨-, rfl | rfl⟩ | ⟨-, rfl⟩ | ⟨-, rfl⟩
  · exact split (by decide) _ rfl (by decide)
  · exact split (by decide) _ rfl (by decide)
  · exact split (by decide) _ rfl (by decide)
  · have hd : ∀ b ∈ digitText lowerHex (digitsIn 10 v n), isDigit b = true ∧ isWordByte b = true :=
      digitText_forall (by decide) (by decide) v n
    have hl := digitText_length lowerHex 10 v n
    generalize digitText lowerHex (digitsIn 10 v n) = t at hd hl
    match t with
    | [] => simp at hl; omega
    | b :: w => exact ⟨b, w, rfl, (hd b (by simp)).1, fun c hc => (hd c hc).2⟩

/-! ### Tokens -/

/-- A token the syntax has a text for: a name begins with no digit, and a mark is no blank, no quote and no byte of a name. -/
def Token.proper : Token → Prop
  | .word w => ∃ b rest, w = b :: rest ∧ isDigit b = false ∧ ∀ c ∈ w, isWordByte c = true
  | .num _ => True
  | .str _ => True
  | .mark b => ¬ IsBlank b ∧ b ≠ 0x22#8 ∧ isWordByte b = false

theorem isWordByte_of_isDigit {b : Byte} (h : isDigit b = true) : isWordByte b = true := by simp [isWordByte, h]

theorem isBlank_not_word {b : Byte} (h : IsBlank b) : isWordByte b = false := by
  simp only [IsBlank, List.mem_cons, List.not_mem_nil, or_false] at h
  rcases h with rfl | rfl | rfl | rfl <;> rfl

theorem not_isBlank_of_word {b : Byte} (h : isWordByte b = true) : ¬ IsBlank b := fun hb => by
  rw [isBlank_not_word hb] at h; cases h

theorem not_quote_of_word {b : Byte} (h : isWordByte b = true) : b ≠ 0x22#8 := by rintro rfl; cases h

theorem isBlank_iff (b : Byte) : IsBlank b ↔ (b = 0x20#8 ∨ b = 0x09#8 ∨ b = 0x0A#8 ∨ b = 0x0D#8) := by simp [IsBlank]

/-- Blanks before a text give no token. -/
theorem tokens_blanks {bs : Line} (hb : ∀ b ∈ bs, IsBlank b) (t : Line) {n : Nat} (hn : (bs ++ t).length ≤ n) :
    ∃ m, t.length ≤ m ∧ tokens n (bs ++ t) = tokens m t := by
  induction bs generalizing n with
  | nil => exact ⟨n, by simpa using hn, rfl⟩
  | cons b bs ih =>
    cases n with
    | zero => simp at hn
    | succ n =>
      obtain ⟨m, h1, h2⟩ := ih (fun b h => hb b (by simp [h])) (n := n) (by simpa using hn)
      refine ⟨m, h1, ?_⟩
      rw [← h2, List.cons_append, tokens, if_pos ((isBlank_iff b).mp (hb b (by simp)))]

/-- What follows a name or a number in a spaced text is no byte of a name or number. -/
theorem spaced_head {toks : List Token} {rest : Line} (hp : ∀ tok ∈ toks, tok.proper) (h : Spaced toks rest)
    (hs : (∃ next, toks.head? = some next ∧ next.isName = true) → ∃ b, rest.head? = some b ∧ IsBlank b) :
    ∀ b, rest.head? = some b → isWordByte b = false := by
  intro b hb
  cases toks with
  | nil => exact isBlank_not_word (h b (List.mem_of_mem_head? hb))
  | cons next toks =>
    cases hn : next.isName with
    | true =>
      obtain ⟨b', hb', hbl⟩ := hs ⟨next, rfl, hn⟩
      rw [hb] at hb'; cases hb'; exact isBlank_not_word hbl
    | false =>
      obtain ⟨bs, x, r, h1, h2, -, rfl, -⟩ := h
      cases bs with
      | cons c bs => cases hb; exact isBlank_not_word (h1 _ (by simp))
      | nil =>
        cases next with
        | word _ => cases hn
        | num _ => cases hn
        | str l => obtain ⟨-, rfl⟩ := h2; cases hb; rfl
        | mark m => cases h2; cases hb; exact (hp (.mark b) (by simp)).2.2

theorem takeWhile_word {x rest : Line} (hx : ∀ c ∈ x, isWordByte c = true)
    (hr : ∀ b, rest.head? = some b → isWordByte b = false) :
    (x ++ rest).takeWhile isWordByte = x ∧ (x ++ rest).dropWhile isWordByte = rest := by
  rw [List.takeWhile_append_of_pos hx, List.dropWhile_append_of_pos hx]
  cases rest with
  | nil => simp
  | cons b rest => simp [hr b rfl]

theorem takeWhile_quote {l : Line} (h : 0x22#8 ∉ l) (rest : Line) :
    (l ++ 0x22#8 :: rest).takeWhile (· != 0x22#8) = l ∧ (l ++ 0x22#8 :: rest).dropWhile (· != 0x22#8) = 0x22#8 :: rest := by
  have hl : ∀ c ∈ l, (c != 0x22#8) = true := fun c hc => by
    have : c ≠ 0x22#8 := fun e => h (e ▸ hc)
    simpa using this
  rw [List.takeWhile_append_of_pos hl, List.dropWhile_append_of_pos hl]
  simp

/-- The first token of a text. -/
theorem tokens_text {tok : Token} {x rest : Line} (hp : tok.proper) (hx : TokenText tok x)
    (hr : tok.isName = true → ∀ b, rest.head? = some b → isWordByte b = false) {n : Nat} (hn : (x ++ rest).length ≤ n) :
    ∃ m, rest.length ≤ m ∧ tokens n (x ++ rest) = (tokens m rest).map (tok :: ·) := by
  cases n with
  | zero =>
    exfalso
    cases tok with
    | word w => obtain ⟨b, r, rfl, -⟩ := hp; cases hx; simp at hn
    | num v => obtain ⟨b, r, rfl, -⟩ := numberText_bytes hx; simp at hn
    | str l => obtain ⟨-, rfl⟩ := hx; simp at hn
    | mark b => cases hx; simp at hn
  | succ n =>
    cases tok with
    | word w =>
      cases hx
      obtain ⟨b, r, rfl, hd, hw⟩ := hp
      have hb := hw b (by simp)
      obtain ⟨e1, e2⟩ := takeWhile_word hw (hr rfl)
      have e3 : (r ++ rest).dropWhile isWordByte = rest := by simpa [hb] using e2
      refine ⟨n, by simp at hn; omega, ?_⟩
      rw [List.cons_append, tokens, if_neg ((isBlank_iff b).not.mp (not_isBlank_of_word hb)), if_neg (not_quote_of_word hb), hd,
        if_neg Bool.false_ne_true, if_pos hb, e3, ← List.cons_append, e1]
    | num v =>
      obtain ⟨b, r, rfl, hd, hw⟩ := numberText_bytes hx
      have hb := hw b (by simp)
      obtain ⟨e1, e2⟩ := takeWhile_word hw (hr rfl)
      have e3 : (r ++ rest).dropWhile isWordByte = rest := by simpa [hb] using e2
      refine ⟨n, by simp at hn; omega, ?_⟩
      rw [List.cons_append, tokens, if_neg ((isBlank_iff b).not.mp (not_isBlank_of_word hb)), if_neg (not_quote_of_word hb),
        if_pos hd, e3, ← List.cons_append, e1, number_of_numberText hx]
      rfl
    | str l =>
      obtain ⟨hq, rfl⟩ := hx
      obtain ⟨e1, e2⟩ := takeWhile_quote hq rest
      refine ⟨n, by simp at hn; omega, ?_⟩
      rw [List.cons_append, List.append_assoc, List.singleton_append, tokens, if_neg (by decide), if_pos rfl, e2, e1]
    | mark b =>
      cases hx
      obtain ⟨h1, h2, h3⟩ := hp
      have h4 : isDigit b = false := Bool.eq_false_iff.mpr fun h => by rw [isWordByte_of_isDigit h] at h3; cases h3
      refine ⟨n, by simpa using hn, ?_⟩
      rw [List.singleton_append, tokens, if_neg ((isBlank_iff b).not.mp h1), if_neg h2, h4, if_neg Bool.false_ne_true, h3,
        if_neg Bool.false_ne_true]

/-- The tokens of a spaced text are the ones it holds. -/
theorem tokens_spaced {toks : List Token} {t : Line} (hp : ∀ tok ∈ toks, tok.proper) (h : Spaced toks t) {n : Nat}
    (hn : t.length ≤ n) : tokens n t = some toks := by
  induction toks generalizing t n with
  | nil =>
    obtain ⟨m, -, hm⟩ := tokens_blanks h [] (n := n) (by simpa using hn)
    rw [List.append_nil] at hm
    rw [hm]; cases m <;> rfl
  | cons tok toks ih =>
    obtain ⟨bs, x, rest, h1, h2, h3, rfl, h4⟩ := h
    have hp' : ∀ tok ∈ toks, tok.proper := fun t ht => hp t (by simp [ht])
    obtain ⟨m, hm, e⟩ := tokens_blanks h1 (x ++ rest) hn
    obtain ⟨k, hk, e'⟩ := tokens_text (hp tok (by simp)) h2 (fun hn => spaced_head hp' h3 (h4 hn)) hm
    rw [e, e', ih hp' h3 hk]; rfl

/-! ### The tokens of a request -/

theorem nameToken_eq (s : String) : nameToken s = .word (asciiText s) := rfl

theorem proper_name {s : String}
    (h : (match asciiText s with | [] => false | b :: r => !isDigit b && (b :: r).all isWordByte) = true) :
    (nameToken s).proper := by
  rw [nameToken_eq]
  cases hs : asciiText s with
  | nil => rw [hs] at h; cases h
  | cons b r =>
    rw [hs] at h
    simp only [Bool.and_eq_true, Bool.not_eq_true', List.all_eq_true] at h
    exact ⟨b, r, rfl, h.1, h.2⟩

theorem proper_mark {b : Byte} (h : b ∈ [0x2C#8, 0x3D#8, 0x3A#8, 0x5B#8, 0x5D#8, 0x7B#8, 0x7D#8]) : (Token.mark b).proper := by
  have : ∀ b ∈ [0x2C#8, 0x3D#8, 0x3A#8, 0x5B#8, 0x5D#8, 0x7B#8, 0x7D#8],
      b ∉ [0x20#8, 0x09#8, 0x0A#8, 0x0D#8] ∧ b ≠ 0x22#8 ∧ isWordByte b = false := by decide
  exact this b h

theorem proper_comma : commaToken.proper := proper_mark (by decide)

theorem proper_field {key : String} (hk : (nameToken key).proper) (v : Nat) : ∀ t ∈ fieldTokens key v, t.proper := by
  intro t ht
  simp only [fieldTokens, List.mem_cons, List.not_mem_nil, or_false] at ht
  rcases ht with rfl | rfl | rfl
  · exact hk
  · exact proper_mark (by decide)
  · trivial

theorem mem_intersperse {α : Type} {sep x : α} {l : List α} (h : x ∈ l.intersperse sep) : x ∈ l ∨ x = sep := by
  induction l with
  | nil => simp at h
  | cons a l ih =>
    cases l with
    | nil => simp at h; simp [h]
    | cons b l =>
      rw [List.intersperse_cons_cons, List.mem_cons, List.mem_cons] at h
      rcases h with rfl | rfl | h
      · simp
      · simp
      · exact (ih h).imp_left (List.mem_cons_of_mem _)

theorem proper_list {tss : List (List Token)} (h : ∀ ts ∈ tss, ∀ t ∈ ts, t.proper) : ∀ t ∈ listTokens tss, t.proper := by
  intro t ht
  simp only [listTokens, List.mem_cons, List.mem_append, List.not_mem_nil, or_false] at ht
  rcases ht with rfl | ht | rfl
  · exact proper_mark (by decide)
  · obtain ⟨ts, hts, ht⟩ := List.mem_flatten.mp ht
    rcases mem_intersperse hts with h' | rfl
    · exact h ts h' t ht
    · exact List.mem_singleton.mp ht ▸ proper_comma
  · exact proper_mark (by decide)

theorem exists_of_forall₂ {α β : Type} {R : α → β → Prop} {as : List α} {bs : List β} (h : List.Forall₂ R as bs) :
    ∀ b ∈ bs, ∃ a, R a b := by
  induction h with
  | nil => simp
  | cons h _ ih =>
    intro b hb
    rcases List.mem_cons.mp hb with rfl | hb
    · exact ⟨_, h⟩
    · exact ih b hb

theorem proper_rawFrame (r : RawFrame) : ∀ t ∈ rawFrameTokens r, t.proper := by
  intro t ht
  simp only [rawFrameTokens, List.mem_cons, List.mem_append] at ht
  rcases ht with ht | rfl | ht | rfl | ht | rfl | ht | rfl | rfl | rfl | ht
  · exact proper_field (proper_name (by decide)) _ t ht
  · exact proper_comma
  · exact proper_field (proper_name (by decide)) _ t ht
  · exact proper_comma
  · exact proper_field (proper_name (by decide)) _ t ht
  · exact proper_comma
  · exact proper_field (proper_name (by decide)) _ t ht
  · exact proper_comma
  · exact proper_name (by decide)
  · exact proper_mark (by decide)
  · refine proper_list (fun ts hts t ht => ?_) t ht
    obtain ⟨b, -, rfl⟩ := List.mem_map.mp hts
    exact List.mem_singleton.mp ht ▸ trivial

theorem proper_pattern {p : IdPattern} {ts : List Token} (h : PatternTokens p ts) : ∀ t ∈ ts, t.proper := by
  have ho {key : String} {v : Byte} {ts : List Token} (hk : (nameToken key).proper) (h : OptionalTokens key v ts) :
      ∀ t ∈ ts, t.proper := by
    rcases h with rfl | ⟨rfl, -⟩
    · exact List.forall_mem_cons.mpr ⟨proper_comma, proper_field hk _⟩
    · simp
  obtain ⟨t0, t1, h0, h1, rfl⟩ := h
  intro t ht
  simp only [List.mem_cons, List.mem_append] at ht
  rcases ht with rfl | ht | ht | ht
  · cases p.layout <;> exact proper_name (by decide)
  · exact proper_field (proper_name (by decide)) _ t ht
  · exact ho (proper_name (by decide)) h0 t ht
  · exact ho (proper_name (by decide)) h1 t ht

theorem proper_chain {c : FilterChain} {ts : List Token} (h : ChainTokens c ts) : ∀ t ∈ ts, t.proper := by
  obtain ⟨m, fs, hm, hf, rfl⟩ := h
  intro t ht
  simp only [List.mem_cons, List.mem_append, List.not_mem_nil, or_false] at ht
  rcases ht with rfl | rfl | rfl | ht | rfl | rfl | rfl | ht | rfl
  · exact proper_mark (by decide)
  · exact proper_name (by decide)
  · exact proper_mark (by decide)
  · exact proper_pattern hm t ht
  · exact proper_comma
  · exact proper_name (by decide)
  · exact proper_mark (by decide)
  · refine proper_list (fun ts hts => ?_) t ht
    obtain ⟨p, hp⟩ := exists_of_forall₂ hf ts hts
    exact proper_pattern hp
  · exact proper_mark (by decide)

/-- Every token of a request is proper, so its texts are read token by token (`tokens_spaced`). -/
theorem proper_request {q : Request} {ts : List Token} (h : RequestTokens q ts) : ∀ t ∈ ts, t.proper := by
  cases h with
  | frameMake r => exact List.forall_mem_cons.mpr ⟨proper_name (by decide), proper_rawFrame r⟩
  | frameEncode r => exact List.forall_mem_cons.mpr ⟨proper_name (by decide), proper_rawFrame r⟩
  | frameDecode l => exact List.forall_mem_cons.mpr ⟨proper_name (by decide), by simp [Token.proper]⟩
  | baudCompute b => exact List.forall_mem_cons.mpr ⟨proper_name (by decide), by simp [Token.proper]⟩
  | maskEncode p ts h => exact List.forall_mem_cons.mpr ⟨proper_name (by decide), proper_pattern h⟩
  | filterValueEncode p ts h => exact List.forall_mem_cons.mpr ⟨proper_name (by decide), proper_pattern h⟩
  | filterProgram cs tss h =>
    refine List.forall_mem_cons.mpr ⟨proper_name (by decide), proper_list fun ts hts => ?_⟩
    obtain ⟨c, hc⟩ := exists_of_forall₂ h ts hts
    exact proper_chain hc
  | regWriteFormat w =>
    refine List.forall_mem_cons.mpr ⟨proper_name (by decide), ?_⟩
    intro t ht
    simp only [List.mem_cons, List.not_mem_nil, or_false] at ht
    rcases ht with rfl | rfl | rfl
    · trivial
    · exact proper_comma
    · trivial

/-! ### Readers -/

@[simp] theorem readMark_mark (b : Byte) (ts : List Token) : readMark b (.mark b :: ts) = some ((), ts) := by simp [readMark]

@[simp] theorem readMark_comma (ts : List Token) : readMark (ascii ',') (commaToken :: ts) = some ((), ts) := readMark_mark _ ts
@[simp] theorem readMark_equals (ts : List Token) : readMark (ascii '=') (.mark 0x3D#8 :: ts) = some ((), ts) :=
  readMark_mark _ ts
@[simp] theorem readMark_colon (ts : List Token) : readMark (ascii ':') (.mark 0x3A#8 :: ts) = some ((), ts) :=
  readMark_mark _ ts
@[simp] theorem readMark_open (ts : List Token) : readMark (ascii '[') (.mark 0x5B#8 :: ts) = some ((), ts) :=
  readMark_mark _ ts
@[simp] theorem readMark_close (ts : List Token) : readMark (ascii ']') (.mark 0x5D#8 :: ts) = some ((), ts) :=
  readMark_mark _ ts
@[simp] theorem readMark_close_comma (ts : List Token) : readMark (ascii ']') (commaToken :: ts) = none := rfl

@[simp] theorem readWord_name (w : String) (ts : List Token) : readWord w (nameToken w :: ts) = some ((), ts) := by
  simp [readWord, nameToken_eq]

@[simp] theorem readNumber_num {w : Nat} (v : BitVec w) (ts : List Token) : readNumber w (.num v.toNat :: ts) = some (v, ts) := by
  simp [readNumber, v.isLt]

@[simp] theorem readField_tokens (key : String) {w : Nat} (v : BitVec w) (ts : List Token) :
    readField key w (fieldTokens key v.toNat ++ ts) = some (v, ts) := by
  simp [readField, fieldTokens]

@[simp] theorem readNext_tokens (key : String) {w : Nat} (v : BitVec w) (ts : List Token) :
    readNext key w (commaToken :: (fieldTokens key v.toNat ++ ts)) = some (v, ts) := by
  simp [readNext]

/-- A field is not read where the tokens do not begin with a comma. -/
theorem readNext_mark {key : String} {w : Nat} {b : Byte} (h : b ≠ 0x2C#8) (ts : List Token) :
    readNext key w (.mark b :: ts) = none := by
  have : ascii ',' = 0x2C#8 := rfl
  simp [readNext, readMark, this, h]

/-- Nor where the comma stands before another token than its key. -/
theorem readNext_comma {key : String} {w : Nat} {t : Token} (h : t ≠ nameToken key) (ts : List Token) :
    readNext key w (commaToken :: t :: ts) = none := by
  rw [nameToken_eq] at h
  simp [readNext, readField, readWord, h]

/-- The tokens after a pattern: none of its optional fields. -/
def EndsPattern (ts : List Token) : Prop := readNext "d0" 8 ts = none ∧ readNext "d1" 8 ts = none

theorem readOptional_tokens {key : String} {v : Byte} {t ts : List Token} (h : OptionalTokens key v t)
    (hts : t = [] → readNext key 8 ts = none) : readOptional key (t ++ ts) = some (v, ts) := by
  rcases h with rfl | ⟨rfl, rfl⟩
  · simp [readOptional]
  · simp [readOptional, hts rfl]

theorem readPattern_tokens {p : IdPattern} {t ts : List Token} (h : PatternTokens p t) (hts : EndsPattern ts) :
    readPattern (t ++ ts) = some (p, ts) := by
  obtain ⟨t0, t1, h0, h1, rfl⟩ := h
  have hd1 : t0 = [] → readNext "d0" 8 (t1 ++ ts) = none := fun _ => by
    rcases h1 with rfl | ⟨rfl, -⟩
    · exact readNext_comma (by decide) _
    · exact hts.1
  have hl : readLayout (nameToken (layoutName p.layout) ::
      (fieldTokens "id" p.id.toNat ++ (t0 ++ (t1 ++ ts)))) =
      some (p.layout, fieldTokens "id" p.id.toNat ++ (t0 ++ (t1 ++ ts))) := by
    cases p.layout <;> rfl
  rw [List.cons_append, List.append_assoc, List.append_assoc]
  simp only [readPattern, hl, Option.bind_eq_bind, Option.bind_some, readField_tokens, readOptional_tokens h0 hd1,
    readOptional_tokens h1 fun _ => hts.2]

/-- A list of one item or more is read item by item. `P` is what must hold of the tokens after an item. -/
theorem readItems_tokens {α : Type} {item : Reader α} {R : α → List Token → Prop} {P : List Token → Prop}
    (hi : ∀ a t ts, R a t → P ts → item (t ++ ts) = some (a, ts)) (hc : ∀ ts, P (.mark 0x5D#8 :: ts))
    (hn : ∀ a t ts, R a t → P (commaToken :: (t ++ ts))) {a : α} {as : List α} {t : List Token} {tss : List (List Token)}
    (ha : R a t) (h : List.Forall₂ R as tss) (ts : List Token) {n : Nat} (hl : as.length + 1 ≤ n) :
    readItems item n (((t :: tss).intersperse [commaToken]).flatten ++ .mark 0x5D#8 :: ts) = some (a :: as, ts) := by
  induction h generalizing a t n with
  | nil =>
    cases n with
    | zero => simp at hl
    | succ n => simp [readItems, hi a t _ ha (hc ts)]
  | @cons b u as tss hb h ih =>
    cases n with
    | zero => simp at hl
    | succ n =>
      have hi' := hi a t (commaToken :: (((u :: tss).intersperse [commaToken]).flatten ++ .mark 0x5D#8 :: ts)) ha (by
        cases tss with
        | nil => simpa using hn b u _ hb
        | cons v tss => simpa using hn b u _ hb)
      have hr := ih hb (n := n) (by simpa using hl)
      rw [List.intersperse_cons_cons]
      simp only [List.flatten_cons, List.append_assoc, List.cons_append, List.nil_append, readItems, hi', Option.bind_eq_bind,
        Option.bind_some, readMark_close_comma, readMark_comma, hr]

/-- A list is read whole. No item's tokens begin with the closing bracket. -/
theorem readList_tokens {α : Type} {item : Reader α} {R : α → List Token → Prop} {P : List Token → Prop}
    (hi : ∀ a t ts, R a t → P ts → item (t ++ ts) = some (a, ts)) (hc : ∀ ts, P (.mark 0x5D#8 :: ts))
    (hn : ∀ a t ts, R a t → P (commaToken :: (t ++ ts))) (h0 : ∀ a t ts, R a t → readMark (ascii ']') (t ++ ts) = none)
    {as : List α} {tss : List (List Token)} (h : List.Forall₂ R as tss) (ts : List Token) :
    readList item (listTokens tss ++ ts) = some (as, ts) := by
  cases h with
  | nil => simp [readList, listTokens]
  | @cons a t as tss ha h =>
    have hl : as.length + 1 ≤ (((t :: tss).intersperse [commaToken]).flatten ++ .mark 0x5D#8 :: ts).length := by
      rw [h.length_eq]
      clear h ha h0 hn hc hi
      induction tss generalizing t with
      | nil => simp; omega
      | cons u tss ih =>
        rw [List.intersperse_cons_cons]
        have := ih (t := u)
        simp at this ⊢
        omega
    have hm : readMark (ascii ']') (((t :: tss).intersperse [commaToken]).flatten ++ .mark 0x5D#8 :: ts) = none := by
      cases tss with
      | nil => simpa using h0 a t _ ha
      | cons u tss => simpa using h0 a t _ ha
    have hr := readItems_tokens hi hc hn ha h ts hl
    simp only [readList, listTokens, List.cons_append, List.append_assoc, List.nil_append, readMark_open, Option.bind_eq_bind,
      Option.bind_some, hm, hr]

theorem readRawFrame_tokens (r : RawFrame) (ts : List Token) : readRawFrame (rawFrameTokens r ++ ts) = some (r, ts) := by
  have hd : readList (readNumber 8) (listTokens (r.data.map fun b => [.num b.toNat]) ++ ts) = some (r.data, ts) := by
    refine readList_tokens (R := fun b t => t = [.num b.toNat]) (P := fun _ => True) ?_ (fun _ => trivial)
      (fun _ _ _ _ => trivial) ?_ ?_ ts
    · rintro b _ ts rfl -; exact readNumber_num b ts
    · rintro b _ ts rfl; rfl
    · rw [List.forall₂_map_right_iff]; exact List.forall₂_same.mpr fun _ _ => rfl
  have hb (b : Bool) : b.toNat = (BitVec.ofBool b).toNat := by cases b <;> rfl
  have e (b : Bool) : (BitVec.ofBool b == 1#1) = b := by cases b <;> rfl
  obtain ⟨id, ext, rtr, dlc, data⟩ := r
  simp only [rawFrameTokens, hb, List.append_assoc, List.cons_append, readRawFrame, readField_tokens, readNext_tokens,
    Option.bind_eq_bind, Option.bind_some, readMark_comma, readMark_equals, readWord_name, hd, e]

theorem readChain_tokens {c : FilterChain} {t : List Token} (h : ChainTokens c t) (ts : List Token) :
    readChain (t ++ ts) = some (c, ts) := by
  obtain ⟨m, fs, hm, hf, rfl⟩ := h
  have hl := readList_tokens (P := EndsPattern) (fun p t ts h hts => readPattern_tokens h hts)
    (fun ts => ⟨readNext_mark (by decide) ts, readNext_mark (by decide) ts⟩)
    (by
      rintro p _ ts ⟨t0, t1, -, -, rfl⟩
      constructor <;> exact readNext_comma (by cases p.layout <;> decide) _)
    (by rintro p _ ts ⟨t0, t1, -, -, rfl⟩; rfl) hf (.mark 0x7D#8 :: ts)
  have hp := readPattern_tokens hm (ts := commaToken :: nameToken "filters" :: .mark 0x3A#8 ::
    (listTokens fs ++ .mark 0x7D#8 :: ts)) ⟨readNext_comma (by decide) _, readNext_comma (by decide) _⟩
  simp only [List.cons_append, List.append_assoc, List.nil_append, readChain, readMark_mark, readMark_colon, readMark_comma,
    readWord_name, Option.bind_eq_bind, Option.bind_some, hp, hl]

theorem readChains_tokens {cs : List FilterChain} {tss : List (List Token)} (h : List.Forall₂ ChainTokens cs tss)
    (ts : List Token) : readList readChain (listTokens tss ++ ts) = some (cs, ts) :=
  readList_tokens (P := fun _ => True) (fun c t ts h _ => readChain_tokens h ts) (fun _ => trivial) (fun _ _ _ _ => trivial)
    (by rintro c _ ts ⟨m, fs, -, -, rfl⟩; rfl) h ts

/-- The tokens of a request begin with its mnemonic, and its operands' reader reads all the others. -/
theorem readRequest_tokens {q : Request} {ts : List Token} (h : RequestTokens q ts) :
    ∃ m operands, ts = .word m :: operands ∧ readRequest m operands = some (q, []) := by
  have raw (r : RawFrame) : readRawFrame (rawFrameTokens r) = some (r, []) := by
    simpa using readRawFrame_tokens r []
  have pat {p : IdPattern} {ts : List Token} (h : PatternTokens p ts) : readPattern ts = some (p, []) := by
    simpa using readPattern_tokens h (ts := []) ⟨rfl, rfl⟩
  have chs {cs : List FilterChain} {tss : List (List Token)} (h : List.Forall₂ ChainTokens cs tss) :
      readList readChain (listTokens tss) = some (cs, []) := by
    simpa using readChains_tokens h []
  have read {α : Type} {op : Byte} (f : α → Operands) {rd : Option (α × List Token)} {a : α} (h : rd = some (a, [])) :
      rd.map (fun p => ((⟨op, f p.1⟩ : Request), p.2)) = some (⟨op, f a⟩, []) := by rw [h]; rfl
  cases h with
  | frameMake r => exact ⟨_, _, rfl, read .rawFrame (raw r)⟩
  | frameEncode r => exact ⟨_, _, rfl, read .rawFrame (raw r)⟩
  | frameDecode l => exact ⟨_, _, rfl, rfl⟩
  | baudCompute b =>
    exact ⟨_, _, rfl, read .baud (readNumber_num b [])⟩
  | maskEncode p ts h => exact ⟨_, _, rfl, read .pattern (pat h)⟩
  | filterValueEncode p ts h => exact ⟨_, _, rfl, read .pattern (pat h)⟩
  | filterProgram cs tss h => exact ⟨_, _, rfl, read .chains (chs h)⟩
  | regWriteFormat w =>
    refine ⟨_, _, rfl, read .regWrite ?_⟩
    simp [readRegWrite]

end Sys2Proof.Machine
end

