-- ==== Sys2Proof/Laws/State.lean ====
section
/-! SUPPORT. One lemma for each field of each state update, and what answering a request can do. -/

namespace Sys2Proof.Machine

@[simp] theorem respond_cfg (s : State) (st r) : (s.respond st r).cfg = s.cfg := rfl
@[simp] theorem respond_req_valid (s : State) (st r) : (s.respond st r).req.valid = false := rfl
@[simp] theorem respond_req_opcode (s : State) (st r) : (s.respond st r).req.opcode = s.req.opcode := rfl
@[simp] theorem respond_req_operands (s : State) (st r) : (s.respond st r).req.operands = s.req.operands := rfl
@[simp] theorem respond_rsp (s : State) (st r) : (s.respond st r).rsp = ⟨true, st, r⟩ := rfl
@[simp] theorem respond_host (s : State) (st r) : (s.respond st r).host = s.host := rfl
@[simp] theorem respond_wire (s : State) (st r) : (s.respond st r).wire = s.wire := rfl
@[simp] theorem respond_target (s : State) (st r) : (s.respond st r).target = s.target := rfl
@[simp] theorem respond_timing (s : State) (st r) : (s.respond st r).timing = s.timing := rfl
@[simp] theorem respond_readTarget (s : State) (st r) (a : Byte) : (s.respond st r).readTarget a = s.readTarget a := rfl

@[simp] theorem raise_cfg (s : State) (e) : (s.raise e).cfg = s.cfg := rfl
@[simp] theorem raise_rsp (s : State) (e) : (s.raise e).rsp = ⟨true, e.code, none⟩ := rfl
@[simp] theorem raise_host (s : State) (e) : (s.raise e).host = s.host := rfl
@[simp] theorem raise_wire (s : State) (e) : (s.raise e).wire = s.wire := rfl
@[simp] theorem raise_target (s : State) (e) : (s.raise e).target = s.target := rfl
@[simp] theorem raise_timing (s : State) (e) : (s.raise e).timing = s.timing := rfl

@[simp] theorem writeTarget_cfg (s : State) (w) : (s.writeTarget w).cfg = s.cfg := rfl
@[simp] theorem writeTarget_req (s : State) (w) : (s.writeTarget w).req = s.req := rfl
@[simp] theorem writeTarget_rsp (s : State) (w) : (s.writeTarget w).rsp = s.rsp := rfl
@[simp] theorem writeTarget_host (s : State) (w) : (s.writeTarget w).host = s.host := rfl
@[simp] theorem writeTarget_wire (s : State) (w) : (s.writeTarget w).wire = s.wire := rfl
@[simp] theorem writeTarget_timing (s : State) (w) : (s.writeTarget w).timing = s.timing := rfl
@[simp] theorem writeTarget_target (s : State) (w) :
    (s.writeTarget w).target = Memory.write s.target w.addr.toNat w.value := rfl

@[simp] theorem resetBlock_cfg (s : State) : s.resetBlock.cfg = s.cfg := rfl
@[simp] theorem resetBlock_req_valid (s : State) : s.resetBlock.req.valid = false := rfl
@[simp] theorem resetBlock_rsp_valid (s : State) : s.resetBlock.rsp.valid = false := rfl
@[simp] theorem resetBlock_host (s : State) : s.resetBlock.host = s.host := rfl
@[simp] theorem resetBlock_wire (s : State) : s.resetBlock.wire = s.wire := rfl
@[simp] theorem resetBlock_target (s : State) : s.resetBlock.target = s.target := rfl
@[simp] theorem resetBlock_timing (s : State) : s.resetBlock.timing = s.timing := rfl

@[simp] theorem complete_ok (s : State) (r : Result) : s.complete (.ok r) = .next (s.respond statusOk (some r)) := rfl
@[simp] theorem complete_error (s : State) (e : Err) : s.complete (.error e) = .next (s.raise e) := rfl

/-- An operation always answers, with the status and result its outcome fixes. -/
theorem complete_eq (s : State) (o : Except Err Result) :
    s.complete o = .next (s.respond
      (match o with | .ok _ => statusOk | .error e => e.code) (match o with | .ok r => some r | .error _ => none)) := by
  cases o <;> rfl

/-- What it is to answer, in the model's own words. -/
theorem answers_iff (o : Outcome) (s : State) (st : Byte) (r : Option Result) :
    Answers o s st r ↔ o = .next (s.respond st r) := Iff.rfl

end Sys2Proof.Machine
end

