-- ==== Sys2Proof/Laws/BitTiming.lean ====
section
/-! SUPPORT. The bit-timing search: the rounding, the divisor of a candidate, the winner of the search, the presets and the
clauses of a well-formed configuration. -/

namespace Sys2Proof.Machine

/-- The clauses of R3, taken apart. -/
theorem Cfg.wf_clauses {c : Cfg} (h : c.wf = true) :
    1 ≤ c.oscHz.toNat ∧ c.xMin.toNat ≤ c.xMax.toNat ∧ c.cnfTable.length = c.xMax.toNat - c.xMin.toNat + 1 ∧
      2 ≤ c.xbrpMin.toNat ∧ c.xbrpMin.toNat ≤ c.xbrpMax.toNat ∧ c.xbrpMax.toNat ≤ 128 ∧ c.xbrpMin.toNat % 2 = 0 ∧
      c.xbrpMax.toNat % 2 = 0 ∧ c.presetRates.toList.Nodup ∧ c.maskBase0.toNat + c.maskStride.toNat + 3 ≤ 255 ∧
      ∀ (i : Nat) (_ : i < 6), c.filterBase[i].toNat + 3 ≤ 255 := by
  simpa [Cfg.wf, and_assoc] using h

/-- The rounding answers the one multiple of 20 within reach, a half upwards (R144). -/
theorem roundTo20_spec (v : Nat) : roundTo20 v % 20 = 0 ∧ roundTo20 v ≤ v + 10 ∧ v < roundTo20 v + 10 := by
  unfold roundTo20
  split <;> omega

theorem roundTo20_unique {v w : Nat} (h1 : w % 20 = 0) (h2 : w ≤ v + 10) (h3 : v < w + 10) : w = roundTo20 v := by
  unfold roundTo20
  split <;> omega

/-- The divisor of a candidate is the one R144 and R145 describe. -/
theorem isDivisor_iff {c : Cfg} {xd x z : Nat} (hx : 1 ≤ x) : IsDivisor c xd x z ↔ z = candidateXbrp c xd x := by
  have hd : floorDiv (xd * 10) x = xd * 10 / x := if_neg (by omega)
  unfold candidateXbrp
  rw [hd]
  constructor
  · rintro ⟨v, h1, h2, h3, rfl⟩
    rw [roundTo20_unique h1 h2 h3]
  · rintro rfl
    obtain ⟨h1, h2, h3⟩ := roundTo20_spec (xd * 10 / x)
    exact ⟨_, h1, h2, h3, rfl⟩

theorem candidateXbrp_range {c : Cfg} (h : c.wf = true) (xd x : Nat) :
    c.xbrpMin.toNat ≤ candidateXbrp c xd x ∧ candidateXbrp c xd x ≤ c.xbrpMax.toNat ∧ candidateXbrp c xd x % 2 = 0 := by
  obtain ⟨-, -, -, -, h5, -, h7, h8, -⟩ := Cfg.wf_clauses h
  have h20 := (roundTo20_spec (floorDiv (xd * 10) x)).1
  unfold candidateXbrp
  omega

theorem candidate_diff (c : Cfg) (xd x : Nat) : (candidate c xd x).diff = distance xd x (candidateXbrp c xd x) := by
  simp only [candidate, distance]
  omega

/-- Folding the search over bit times: the winner is the first of the nearest (R148). -/
theorem foldl_keepBetter (f : Nat → Candidate) (xs : List Nat) (hs : xs.Pairwise (· < ·)) (b : Nat)
    (hb : ∀ x ∈ xs, b < x) :
    ∃ w, (w = b ∨ w ∈ xs) ∧ xs.foldl (fun best x => keepBetter best (f x)) (some (f b)) = some (f w) ∧
      ∀ y, y = b ∨ y ∈ xs → (f w).diff ≤ (f y).diff ∧ (y < w → (f w).diff < (f y).diff) := by
  induction xs using List.reverseRecOn with
  | nil => exact ⟨b, .inl rfl, rfl, by rintro y (rfl | hy) <;> simp_all⟩
  | append_singleton xs a ih =>
    obtain ⟨hs1, -, hs2⟩ := List.pairwise_append.mp hs
    obtain ⟨w, hw, hf, hmin⟩ := ih hs1 fun x hx => hb x (by simp [hx])
    have hlt : ∀ y, y = b ∨ y ∈ xs → y < a := by
      rintro y (rfl | hy)
      · exact hb a (by simp)
      · exact hs2 y hy a (by simp)
    rw [List.foldl_append, hf]
    simp only [List.foldl_cons, List.foldl_nil, keepBetter]
    split
    · rename_i hd
      refine ⟨a, .inr (by simp), rfl, ?_⟩
      rintro y hy
      simp only [List.mem_append, List.mem_singleton, ← or_assoc] at hy
      rcases hy with hy | rfl
      · have := (hmin y hy).1; omega
      · omega
    · rename_i hd
      refine ⟨w, hw.imp_right (by simp +contextual), rfl, ?_⟩
      rintro y hy
      simp only [List.mem_append, List.mem_singleton, ← or_assoc] at hy
      rcases hy with hy | rfl
      · exact hmin y hy
      · have := hlt w hw; omega

/-- The search answers the candidate of the smallest bit time among the nearest (R148). -/
theorem search_spec (c : Cfg) (xd : Nat) (h : c.xMin.toNat ≤ c.xMax.toNat) :
    ∃ x, c.xMin.toNat ≤ x ∧ x ≤ c.xMax.toNat ∧ search c xd = candidate c xd x ∧
      ∀ y, c.xMin.toNat ≤ y → y ≤ c.xMax.toNat →
        (candidate c xd x).diff ≤ (candidate c xd y).diff ∧ (y < x → (candidate c xd x).diff < (candidate c xd y).diff) := by
  obtain ⟨n, hn⟩ : ∃ n, c.xMax.toNat + 1 - c.xMin.toNat = n + 1 := ⟨c.xMax.toNat - c.xMin.toNat, by omega⟩
  have hs : (List.range' (c.xMin.toNat + 1) n).Pairwise (· < ·) := List.pairwise_lt_range'
  have hm : ∀ x, x ∈ List.range' (c.xMin.toNat + 1) n ↔ c.xMin.toNat < x ∧ x ≤ c.xMax.toNat := by
    intro x; rw [List.mem_range'_1]; omega
  obtain ⟨w, hw, hf, hmin⟩ := foldl_keepBetter (candidate c xd) _ hs c.xMin.toNat fun x hx => ((hm x).mp hx).1
  have hr : c.xMin.toNat ≤ w ∧ w ≤ c.xMax.toNat := by
    rcases hw with rfl | hw
    · omega
    · have := (hm w).mp hw; omega
  refine ⟨w, hr.1, hr.2, ?_, fun y h1 h2 => hmin y ?_⟩
  · rw [search, candidateTimes, hn, List.range'_succ]
    rw [List.foldl_cons, show keepBetter none (candidate c xd c.xMin.toNat) = some (candidate c xd c.xMin.toNat) from rfl, hf]
  · rw [hm]; omega

/-- No preset is found where the rate is none of them. -/
theorem presetIndex_none {c : Cfg} {b : BitVec 32} (h : ∀ i : Fin 9, c.presetRates[i] ≠ b) : presetIndex c b = none := by
  simpa [presetIndex] using fun i => h i

theorem presetIndex_sound {c : Cfg} {b : BitVec 32} {i : Fin 9} (h : presetIndex c b = some i) :
    c.presetRates[i] = b := by
  simpa using List.find?_some h

/-- A preset rate finds its own index (R142): the rates are distinct (R3). -/
theorem presetIndex_rate {c : Cfg} (hn : c.presetRates.toList.Nodup) (i : Fin 9) :
    presetIndex c c.presetRates[i] = some i := by
  cases h : presetIndex c c.presetRates[i] with
  | none =>
    have := List.find?_eq_none.mp h i (List.mem_finRange i)
    simp at this
  | some j =>
    have hj := presetIndex_sound h
    have : j.val = i.val := by
      refine (List.Nodup.getElem_inj_iff hn (hi := by simp) (hj := by simp)).mp ?_
      simpa using hj
    rw [Fin.ext this]

end Sys2Proof.Machine
end

