-- ==== Sys2Proof/Laws/Decode.lean ====
section
/-! SUPPORT. The kind of a line, taken apart once, and that the encoder's requests are typed. -/

namespace Sys2Proof

/-- A property of the instruction a line decodes to is shown by showing it of each kind, and of FRAME_DECODE for a line of
no kind. -/
theorem decodeLine_elim {P : Instr → Prop} (b : Byte) (rest : Line)
    (ht : b = ascii 't' → P (.lineStdData rest)) (hr : b = ascii 'r' → P (.lineStdRemote rest))
    (hT : b = ascii 'T' → P (.lineExtData rest)) (hR : b = ascii 'R' → P (.lineExtRemote rest))
    (hS : b = ascii 'S' → P (.linePreset rest)) (hs : b = ascii 's' → P (.lineTiming rest))
    (hW : b = ascii 'W' → P (.lineRegWrite rest)) (hC : b = ascii 'C' → P (.lineClose rest))
    (hO : b = ascii 'O' → P (.lineOpenActive rest)) (hL : b = ascii 'L' → P (.lineOpenListen rest))
    (hl : b = ascii 'l' → P (.lineOpenLoopback rest)) (hv : b = ascii 'v' → P (.lineFirmware rest))
    (hV : b = ascii 'V' → P (.lineHardware rest)) (hN : b = ascii 'N' → P (.lineSerial rest))
    (hz : b = ascii 'z' → P (.lineAckLower rest)) (hZ : b = ascii 'Z' → P (.lineAckUpper rest))
    (hB : b = 0x07#8 → P (.byteBell rest)) (hn : b ∉ lineFirstBytes → P (.frameDecode (b :: rest))) :
    P (decodeLine (b :: rest)) := by
  have ite_elim {c : Prop} {_ : Decidable c} {x y : Instr} (h1 : c → P x) (h2 : ¬ c → P y) : P (if c then x else y) := by
    by_cases h : c
    · rw [if_pos h]; exact h1 h
    · rw [if_neg h]; exact h2 h
  refine ite_elim ht fun n1 => ite_elim hr fun n2 => ite_elim hT fun n3 => ite_elim hR fun n4 => ite_elim hS fun n5 =>
    ite_elim hs fun n6 => ite_elim hW fun n7 => ite_elim hC fun n8 => ite_elim hO fun n9 => ite_elim hL fun n10 =>
    ite_elim hl fun n11 => ite_elim hv fun n12 => ite_elim hV fun n13 => ite_elim hN fun n14 => ite_elim hz fun n15 =>
    ite_elim hZ fun n16 => ite_elim hB fun n17 => hn ?_
  simp only [lineFirstBytes, List.mem_cons, List.not_mem_nil, or_false, not_or]
  exact ⟨n1, n2, n3, n4, n5, n6, n7, n8, n9, n10, n11, n12, n13, n14, n15, n16, n17⟩

/-- A line of no kind stays with FRAME_DECODE. -/
theorem decodeLine_of_not_mem {b : Byte} (rest : Line) (h : b ∉ lineFirstBytes) :
    decodeLine (b :: rest) = .frameDecode (b :: rest) := by
  refine decodeLine_elim (P := fun i => i = .frameDecode (b :: rest)) b rest ?_ ?_ ?_ ?_ ?_ ?_ ?_ ?_ ?_ ?_ ?_ ?_ ?_ ?_ ?_ ?_ ?_
    (fun _ => rfl)
  all_goals exact fun e => absurd (e ▸ (by decide)) h

end Sys2Proof
end

