-- ==== Sys2Proof/Laws/FrameCodec.lean ====
section
/-! SUPPORT. The frame codec's parts: acceptance, normalisation, the letters, the frame a line decodes to, and the line of a
frame read back. -/

namespace Sys2Proof.Machine

theorem accepted_iff (c : Cfg) (r : RawFrame) : accepted c r = true ↔ Acceptable c r := by
  unfold accepted Acceptable
  cases r.rtr <;> simp [and_assoc]

theorem normFrame_id_toNat (c : Cfg) (id : Nat) (ext : Bool) :
    (normFrame c id ext).1.toNat = min id c.idExtMax.toNat := by
  have := c.idExtMax.isLt
  simp only [normFrame, BitVec.toNat_ofNat]
  omega

theorem normFrame_ext_iff (c : Cfg) (id : Nat) (ext : Bool) :
    (normFrame c id ext).2 = true ↔ ext = true ∨ c.idStdMax.toNat < (normFrame c id ext).1.toNat := by
  rw [normFrame_id_toNat]
  simp [normFrame]

/-- Normalising a frame that meets the invariants changes nothing (R116). -/
theorem normFrame_of_legal (c : Cfg) (id : BitVec 32) (ext : Bool) (h1 : id.toNat ≤ c.idExtMax.toNat)
    (h2 : c.idStdMax.toNat < id.toNat → ext = true) : normFrame c id.toNat ext = (id, ext) := by
  unfold normFrame
  rw [Nat.min_eq_left h1]
  cases ext
  · simpa using fun h => h2 h
  · simp

@[simp] theorem letterFlags_frameLetter (ext rtr : Bool) : letterFlags (frameLetter ext rtr) = some (ext, rtr) := by
  cases ext <;> cases rtr <;> decide

/-- The letters are the four of R108, and no other byte has flags. -/
theorem letterFlags_eq_some {b : Byte} {p : Bool × Bool} (h : letterFlags b = some p) : b = frameLetter p.1 p.2 := by
  simp only [letterFlags] at h
  repeat' split at h
  all_goals first | (cases h; done) | (simp only [Option.some.injEq] at h; subst h; assumption)

theorem letterFlags_eq_none {b : Byte} (h1 : b ≠ 0x74#8) (h2 : b ≠ 0x72#8) (h3 : b ≠ 0x54#8) (h4 : b ≠ 0x52#8) :
    letterFlags b = none := by
  have t1 : b ≠ ascii 't' := h1
  have t2 : b ≠ ascii 'r' := h2
  have t3 : b ≠ ascii 'T' := h3
  have t4 : b ≠ ascii 'R' := h4
  simp [letterFlags, t1, t2, t3, t4]

/-- What FRAME_DECODE can answer: a frame of a line with a letter, or NotAFrame for a line without one. -/
theorem frameDecode_cases (c : Cfg) (l : Line) :
    (∃ e r rest, l = frameLetter e r :: rest ∧ frameDecode c l = .ok (.frame (decodeFrame c l e r))) ∨
    (frameDecode c l = .error .notAFrame ∧ ∀ e r rest, l ≠ frameLetter e r :: rest) := by
  cases l with
  | nil => exact .inr ⟨rfl, by simp⟩
  | cons b rest =>
    cases h : letterFlags b with
    | none =>
      refine .inr ⟨by simp [frameDecode, h], fun e r rest' hl => ?_⟩
      simp only [List.cons.injEq] at hl
      rw [hl.1, letterFlags_frameLetter] at h
      cases h
    | some p => exact .inl ⟨p.1, p.2, rest, by rw [← letterFlags_eq_some h], by simp [frameDecode, h]⟩

theorem frameDecode_letter (c : Cfg) (e r : Bool) (rest : Line) :
    frameDecode c (frameLetter e r :: rest) = .ok (.frame (decodeFrame c (frameLetter e r :: rest) e r)) := by
  simp [frameDecode]

/-- The frame a line decodes to, field by field (R109 to R113). -/
theorem decodeFrame_decodesTo (c : Cfg) (l : Line) (e r : Bool) :
    DecodesTo c l (idDigits c e) e r (decodeFrame c l e r) := by
  have hd : (decodeFrame c l e r).dlc.toNat = min (fieldValue l (1 + idDigits c e) 1) c.dlcMax.toNat := by
    have := c.dlcMax.isLt
    simp only [decodeFrame, BitVec.toNat_ofNat, parseField_eq]
    omega
  refine ⟨?_, ?_, rfl, hd, ?_, ?_⟩
  · rw [← parseField_eq]; exact normFrame_id_toNat c _ e
  · exact normFrame_ext_iff c _ e
  · rintro rfl; rfl
  · rintro rfl
    refine ⟨?_, fun i hi => ?_⟩
    · rw [hd]; simp [decodeFrame, parseField_eq]
    · rw [hd, ← parseField_eq] at hi
      have := parseField_lt l (2 + idDigits c e + 2 * i) 2
      have hg : (decodeFrame c l e false).data[i]? =
          some (BitVec.ofNat 8 (parseField l (2 + idDigits c e + 2 * i) 2)) := by
        simp only [decodeFrame, Bool.false_eq_true, if_false, List.getElem?_map, List.getElem?_range hi, Option.map_some]
      rw [List.getD, hg, Option.getD_some, BitVec.toNat_ofNat, ← parseField_eq]
      omega

/-- Every decoded frame meets the invariants (R113). -/
theorem decodeFrame_legal (c : Cfg) (l : Line) (e r : Bool) : (decodeFrame c l e r).legal c := by
  obtain ⟨h1, h2, h3, h4, h5, h6⟩ := decodeFrame_decodesTo c l e r
  refine ⟨h1 ▸ Nat.min_le_right .., fun h => h2.mpr (.inr h), h4 ▸ Nat.min_le_right .., fun h => ?_, fun h => ?_⟩
  · exact (h6 (h3 ▸ h)).1
  · exact h5 (h3 ▸ h)

/-- A field that lies wholly inside a line reads the same with bytes after the line. -/
theorem parseField_append {l extra : Line} {off n : Nat} (h : off + n ≤ l.length) :
    parseField (l ++ extra) off n = parseField l off n := by
  unfold parseField
  rw [if_neg (by simp; omega), if_neg (by omega), List.drop_append_of_le_length (by omega),
    List.take_append_of_le_length (by simp; omega)]

theorem getElem?_flatMap_two {f : Byte → Line} (hf : ∀ b, (f b).length = 2) (l : List Byte) (i : Nat) :
    (l.flatMap f)[2 * i]? = l[i]?.bind (fun b => (f b)[0]?) ∧ (l.flatMap f)[2 * i + 1]? = l[i]?.bind (fun b => (f b)[1]?) := by
  induction l generalizing i with
  | nil => simp
  | cons b l ih =>
    cases i with
    | zero => simp [List.getElem?_append, hf]
    | succ i =>
      have h1 : 2 * (i + 1) = (f b).length + 2 * i := by rw [hf]; omega
      have h2 : 2 * (i + 1) + 1 = (f b).length + (2 * i + 1) := by rw [hf]; omega
      rw [List.flatMap_cons, h2, h1, List.getElem?_append_right (Nat.le_add_right ..),
        List.getElem?_append_right (Nat.le_add_right ..), Nat.add_sub_cancel_left, Nat.add_sub_cancel_left]
      exact ih i

theorem length_flatMap_two {f : Byte → Line} (hf : ∀ b, (f b).length = 2) (l : List Byte) :
    (l.flatMap f).length = 2 * l.length := by
  induction l with
  | nil => rfl
  | cons b l ih => simp [hf, ih]; omega

theorem hex_byte (b : Byte) : hex b.toNat 2 = hexDigits b.toNat 2 := hex_of_lt (by have := b.isLt; omega)

/-- The payload of a frame line, read back byte by byte. -/
theorem parse_payload (pre : Line) (data : List Byte) :
    (List.range data.length).map
        (fun i => BitVec.ofNat 8 (parseField (pre ++ data.flatMap fun b => hex b.toNat 2) (pre.length + 2 * i) 2)) = data := by
  induction data generalizing pre with
  | nil => rfl
  | cons b data ih =>
    have hb : b.toNat < 16 ^ 2 := b.isLt
    rw [List.length_cons, List.range_succ_eq_map, List.map_cons, List.map_map, List.flatMap_cons]
    congr 1
    · rw [hex_byte, parseField_hexDigits (by simp) hb]
      simp
    · have := ih (pre ++ hex b.toNat 2)
      simp only [List.length_append, hex_byte, hexDigits_length, List.append_assoc] at this
      refine Eq.trans (List.map_congr_left fun i _ => ?_) this
      simp only [Function.comp, hex_byte]
      congr 2
      omega

/-- The bounds and digit counts the source fixes. -/
theorem frame_params {c : Cfg} (h : c.sourceFixed) : c.idStdMax = 0x7FF#32 ∧ c.idExtMax = 0x1FFFFFFF#32 ∧ c.dlcMax = 8#4 ∧
    c.stdIdDigits = 3#4 ∧ c.extIdDigits = 8#4 := by
  obtain ⟨-, -, -, -, -, -, -, -, -, -, -, -, h⟩ := h; exact h

theorem idDigits_of_sourceFixed {c : Cfg} (h : c.sourceFixed) (e : Bool) : idDigits c e = if e then 8 else 3 := by
  obtain ⟨-, -, -, h1, h2⟩ := frame_params h
  simp [idDigits, h1, h2]

/-- The line of an accepted raw frame, with every numeral written out (R105). -/
theorem frameLine_eq {c : Cfg} (h : c.sourceFixed) {r : RawFrame} (ha : Acceptable c r) :
    frameLine c r = frameLetter (normFrame c r.id.toNat r.ext).2 r.rtr ::
      (hexDigits (min r.id.toNat 0x1FFFFFFF) (idDigits c (normFrame c r.id.toNat r.ext).2) ++
        (hexDigits r.dlc.toNat 1 ++ if r.rtr then [] else r.data.flatMap fun b => hexDigits b.toNat 2)) := by
  obtain ⟨g1, g2, g3, g4, g5⟩ := frame_params h
  obtain ⟨a1, a2, a3, a4⟩ := ha
  have e := normFrame_id_toNat c r.id.toNat r.ext
  rw [g2] at e
  have e' : (normFrame c r.id.toNat r.ext).1.toNat = min r.id.toNat 0x1FFFFFFF := e
  unfold frameLine
  simp only [e', List.append_assoc]
  rw [hex_of_lt, hex_of_lt]
  · simp only [hex_byte]
  · rw [g3] at a2; have : r.dlc.toNat ≤ 8 := a2; omega
  · rw [idDigits_of_sourceFixed h]
    cases hx : (normFrame c r.id.toNat r.ext).2 with
    | true => simp
    | false =>
      have := normFrame_ext_iff c r.id.toNat r.ext
      rw [hx, g1, e'] at this
      simp at this
      simp; omega

/-- A numeral with a byte that is no hex digit has no value (R107). -/
theorem numeral_eq_none {l : Line} (h : ∃ d ∈ l, digitValue d = none) (acc : Nat) : numeral acc l = none := by
  induction l generalizing acc with
  | nil => simp at h
  | cons c l ih =>
    rw [numeral, hexval_eq_digitValue]
    cases hc : digitValue c with
    | none => rfl
    | some d =>
      refine ih ?_ _
      obtain ⟨x, hx, hn⟩ := h
      rcases List.mem_cons.mp hx with rfl | hx
      · rw [hc] at hn; cases hn
      · exact ⟨x, hx, hn⟩

/-- The fields behind two heads of one length read alike. -/
theorem parseField_tail {p q rest : Line} (h : p.length = q.length) {off n : Nat} (ho : p.length ≤ off) :
    parseField (p ++ rest) off n = parseField (q ++ rest) off n := by
  have e1 : (p ++ rest).drop off = rest.drop (off - p.length) := by
    rw [List.drop_append, List.drop_eq_nil_of_le ho]; rfl
  have e2 : (q ++ rest).drop off = rest.drop (off - q.length) := by
    rw [List.drop_append, List.drop_eq_nil_of_le (h ▸ ho)]; rfl
  unfold parseField
  rw [e1, e2, h]
  simp [h]

end Sys2Proof.Machine
end

