-- ==== Sys2Proof/Laws/FilterEncoder.lean ====
section
/-! SUPPORT. The filter encoder's parts: the bits of the tuples, the lines of the writes, the placement of the chains and the
shape of the write lists. -/

namespace Sys2Proof.Machine

theorem regWriteLine_eq (w : RegWrite) : regWriteLine w = 0x57#8 :: (twoDigits w.addr ++ twoDigits w.value) := by
  rw [regWriteLine, hex_two, hex_two]
  rfl

theorem timingLine_eq (cnf1 : Byte) (cnf23 : BitVec 16) :
    timingLine cnf1 cnf23 =
      0x73#8 :: (twoDigits cnf1 ++ twoDigits ((cnf23 >>> 8).setWidth 8) ++ twoDigits (cnf23.setWidth 8)) := by
  rw [timingLine, hex_two, hex_four, List.append_assoc]
  rfl

/-- The standard layout, bit by bit (R92). -/
theorem regsStd_bits (p : IdPattern) :
    (∀ i < 8, (regsStd p).b0.getLsbD i = p.id.getLsbD (i + 3)) ∧
      (∀ i < 3, (regsStd p).b1.getLsbD (i + 5) = p.id.getLsbD i) ∧ ∀ i < 5, (regsStd p).b1.getLsbD i = false := by
  refine ⟨fun i hi => ?_, fun i hi => ?_, fun i hi => ?_⟩ <;> interval_cases i <;> simp [regsStd]

/-- The extended layout, bit by bit (R93): bit 3 of b1 tells a value from a mask. -/
theorem regsExt_bits (c : Cfg) (p : IdPattern) (v : Bool) (h : v = true → c.exideBit = 0x08#8) :
    (∀ i < 8, (regsExt c p v).b0.getLsbD i = p.id.getLsbD (i + 21)) ∧
      (∀ i < 3, (regsExt c p v).b1.getLsbD (i + 5) = p.id.getLsbD (i + 18)) ∧
      (regsExt c p v).b1.getLsbD 4 = false ∧ (regsExt c p v).b1.getLsbD 3 = v ∧ (regsExt c p v).b1.getLsbD 2 = false ∧
      (∀ i < 2, (regsExt c p v).b1.getLsbD i = p.id.getLsbD (i + 16)) ∧
      (∀ i < 8, (regsExt c p v).b2.getLsbD i = p.id.getLsbD (i + 8)) ∧
      ∀ i < 8, (regsExt c p v).b3.getLsbD i = p.id.getLsbD i := by
  cases v
  · refine ⟨fun i hi => ?_, fun i hi => ?_, ?_, ?_, ?_, fun i hi => ?_, fun i hi => ?_, fun i hi => ?_⟩ <;>
      first | (interval_cases i <;> simp [regsExt]) | simp [regsExt]
  · have he := h rfl
    refine ⟨fun i hi => ?_, fun i hi => ?_, ?_, ?_, ?_, fun i hi => ?_, fun i hi => ?_, fun i hi => ?_⟩ <;>
      first | (interval_cases i <;> simp [regsExt, he]) | simp [regsExt, he]

/-- The tuple of a pattern, in the layout it names. -/
theorem regs_bits (c : Cfg) (p : IdPattern) (v : Bool) (h : v = true → c.exideBit = 0x08#8) : TupleBits p v (regs c p v) := by
  unfold TupleBits regs
  cases p.layout
  · obtain ⟨h1, h2, h3⟩ := regsStd_bits p
    exact ⟨h1, h2, h3, rfl, rfl⟩
  · exact regsExt_bits c p v h

/-- A tuple's writes at a base address of one byte. -/
theorem writesTuple_tupleWrites (b : Byte) (t : RegTuple) : WritesTuple (tupleWrites b.toNat t) b t := by
  have e (k : Nat) : BitVec.ofNat 8 (b.toNat + k) = b + BitVec.ofNat 8 k := by
    apply BitVec.eq_of_toNat_eq; simp [BitVec.toNat_add]
  simp only [WritesTuple, tupleWrites, e, BitVec.ofNat_toNat, BitVec.setWidth_eq]
  rfl

@[simp] theorem tupleWrites_length (b : Nat) (t : RegTuple) : (tupleWrites b t).length = 4 := rfl

theorem slotWrites_length (c : Cfg) (slot first count : Nat) (ch : FilterChain) :
    (slotWrites c slot first count ch).length = 4 + 4 * count := by
  have : ∀ l : List Nat,
      (l.flatMap fun i => tupleWrites (filterAddr c (first + i)) (filterTuple c ch i)).length = 4 * l.length := by
    intro l
    induction l with
    | nil => rfl
    | cons a l ih => simp only [List.flatMap_cons, List.length_append, tupleWrites_length, ih, List.length_cons]; omega
  simp [slotWrites, this]

/-- A filter register's writes (R180). -/
theorem writesFilter_tuple (c : Cfg) (h : c.exideBit = 0x08#8) (b : Byte) (ch : FilterChain) (i : Nat) :
    WritesFilter (tupleWrites b.toNat (filterTuple c ch i)) b ch.filters i := by
  unfold WritesFilter filterTuple
  cases ch.filters[i]? with
  | none => exact writesTuple_tupleWrites b zeroTuple
  | some p => exact ⟨_, regs_bits c p true fun _ => h, writesTuple_tupleWrites b _⟩

theorem filterAddr_of_lt (c : Cfg) {f : Nat} (h : f < 6) : filterAddr c f = c.filterBase[f].toNat := by
  simp [filterAddr, h]

/-- FILTER_PROGRAM fails exactly where the placement does, and answers the placement's writes and their lines (R183). -/
theorem filterProgram_cases (c : Cfg) (cs : List FilterChain) :
    (∃ e, placeChains c cs = .error e ∧ filterProgram c cs = .error e) ∨
    ∃ p, placeChains c cs = .ok p ∧
      filterProgram c cs = .ok (.program (programWrites c p) ((programWrites c p).map regWriteLine)) := by
  unfold filterProgram
  cases h : placeChains c cs with
  | error e => exact .inl ⟨e, rfl, rfl⟩
  | ok p => exact .inr ⟨p, rfl, rfl⟩

/-- The placement fails with one of two errors (R213). -/
theorem placeChains_error {c : Cfg} {cs : List FilterChain} {e : Err} (h : placeChains c cs = .error e) :
    e = .tooManyFilterChains ∨ e = .filterChainTooLong := by
  unfold placeChains at h
  split at h
  · cases h; exact .inl rfl
  · split at h
    · cases h
    · split at h <;> cases h
      exact .inr rfl
    · dsimp only at h
      split_ifs at h <;> cases h <;> exact .inr rfl
    · cases h

/-- What the placement is under the source's bounds (R174 to R179): by the number of chains. -/
theorem placeChains_of_sourceFixed {c : Cfg} (h : c.sourceFixed) (cs : List FilterChain) :
    placeChains c cs =
      match cs with
      | [] => .ok none
      | [a] => if 4 < a.filters.length then .error .filterChainTooLong else .ok (some (a, a))
      | [a, b] =>
        if 2 < min a.filters.length b.filters.length ∨ 4 < max a.filters.length b.filters.length then
          .error .filterChainTooLong
        else .ok (some (if b.filters.length < a.filters.length then (b, a) else (a, b)))
      | _ => .error .tooManyFilterChains := by
  obtain ⟨-, -, -, -, -, -, -, -, h0, h1, h2, h3, -⟩ := h
  unfold placeChains
  rw [h0, h1, h2, h3]
  match cs with
  | [] => rfl
  | [a] => rfl
  | [a, b] =>
    simp only [BitVec.toNat_ofNat, List.length_cons, List.length_nil]
    norm_num
    by_cases hab : b.filters.length < a.filters.length
    · simp only [hab, if_true]
      exact if_congr (by omega) rfl rfl
    · simp only [hab, if_false]
      exact if_congr (by omega) rfl rfl
  | a :: b :: d :: cs => simp

/-- The writes of a placement under the source's slot sizes: 8 for none, 32 else (R182). -/
theorem programWrites_length {c : Cfg} (h : c.sourceFixed) (p : Option (FilterChain × FilterChain)) :
    (programWrites c p).length = if p.isSome then 32 else 8 := by
  obtain ⟨-, -, -, -, -, -, -, -, h0, h1, -⟩ := h
  cases p <;> simp [programWrites, slotWrites_length, h0, h1]

theorem ofNat_toNat_add (b : Byte) (k : Nat) : BitVec.ofNat 8 (b.toNat + k) = b + BitVec.ofNat 8 k := by
  apply BitVec.eq_of_toNat_eq; simp [BitVec.toNat_add]

/-- A slot's writes begin with its mask (R180, R181). -/
theorem slotWrites_mask {c : Cfg} (hm : c.maskStride = 4#8) (slot first count : Nat) (ch : FilterChain) :
    ∃ t, TupleBits ch.mask false t ∧
      WritesTuple ((slotWrites c slot first count ch).take 4) (c.maskBase0 + BitVec.ofNat 8 (4 * slot)) t := by
  refine ⟨_, regs_bits c ch.mask false (by simp), ?_⟩
  have : (slotWrites c slot first count ch).take 4 = tupleWrites (maskBase c slot) (regs c ch.mask false) := by
    simp [slotWrites, tupleWrites]
  rw [this]
  have e : maskBase c slot = c.maskBase0.toNat + 4 * slot := by simp [maskBase, hm]
  rw [e]
  simp only [WritesTuple, tupleWrites, Nat.add_assoc]
  simp only [BitVec.ofNat_add, BitVec.add_assoc, BitVec.ofNat_toNat, BitVec.setWidth_eq]
  rfl

/-- The four writes of a slot's filter register i (R180, R181). -/
theorem slotWrites_filter {c : Cfg} (h : c.exideBit = 0x08#8) (slot first count : Nat) (ch : FilterChain) (i : Nat)
    (hi : i < count) (hf : first + i < 6) :
    WritesFilter (((slotWrites c slot first count ch).drop (4 + 4 * i)).take 4) c.filterBase[first + i] ch.filters i := by
  have key : ∀ (l : List Nat) (k : Nat) (hk : k < l.length),
      ((l.flatMap fun i => tupleWrites (filterAddr c (first + i)) (filterTuple c ch i)).drop (4 * k)).take 4 =
        tupleWrites (filterAddr c (first + l[k])) (filterTuple c ch l[k]) := by
    intro l
    induction l with
    | nil => intro k hk; simp at hk
    | cons a l ih =>
      intro k hk
      cases k with
      | zero => simp [tupleWrites]
      | succ k =>
        have := ih k (by simpa using hk)
        rw [List.flatMap_cons, List.drop_append, List.drop_eq_nil_of_le (by simp)]
        simpa [show 4 * (k + 1) - 4 = 4 * k by omega] using this
  have := key (List.range count) i (by simpa using hi)
  have e : (slotWrites c slot first count ch).drop (4 + 4 * i) =
      ((List.range count).flatMap fun i => tupleWrites (filterAddr c (first + i)) (filterTuple c ch i)).drop (4 * i) := by
    rw [slotWrites, ← List.drop_drop]; rfl
  rw [e, this]
  simp only [List.getElem_range]
  rw [filterAddr_of_lt c hf]
  exact writesFilter_tuple c h _ ch i

end Sys2Proof.Machine
end

