-- ==== Sys2Proof/Laws/Outside.lean ====
section
/-! SUPPORT. The wire and the moves of the outside: taking a line, reading the target's line formats back, and what each move
can do to the state. -/

namespace Sys2Proof.Machine

/-- A line without the terminator in it is taken whole, up to the terminator. -/
theorem takeLine_append {term : Byte} {l : Line} (h : term ∉ l) (rest : List Byte) :
    takeLine term (l ++ term :: rest) = some (l, rest) := by
  induction l with
  | nil => simp [takeLine]
  | cons b l ih =>
    have hb : b ≠ term := fun e => h (by simp [e])
    simp [takeLine, hb, ih fun e => h (by simp [e])]

/-- What is taken is the wire up to its first terminator. -/
theorem takeLine_eq_some {term : Byte} {w : List Byte} {p : Line × List Byte} (h : takeLine term w = some p) :
    w = p.1 ++ term :: p.2 ∧ term ∉ p.1 := by
  induction w generalizing p with
  | nil => cases h
  | cons b w ih =>
    rw [takeLine] at h
    split at h
    · rename_i hb; cases h; simp [hb]
    · rename_i hb
      split at h
      · rename_i q hq
        obtain ⟨h1, h2⟩ := ih hq
        cases h
        exact ⟨by simp [h1], by simp [h2, Ne.symm hb]⟩
      · cases h

theorem takeLine_eq_none {term : Byte} {w : List Byte} : takeLine term w = none ↔ term ∉ w := by
  constructor
  · induction w with
    | nil => simp
    | cons b w ih =>
      intro h
      rw [takeLine] at h
      split at h
      · cases h
      · rename_i hb
        split at h
        · cases h
        · rename_i hq
          simp [ih hq, Ne.symm hb]
  · intro h
    cases hw : takeLine term w with
    | none => rfl
    | some p => exact absurd (by rw [(takeLine_eq_some hw).1]; simp) h

theorem parseField_twoDigits {pre post : Line} {off : Nat} (b : Byte) (h : pre.length = off) :
    parseField (pre ++ (twoDigits b ++ post)) off 2 = b.toNat := by
  rw [← hex_two, hex_of_lt b.isLt]
  exact parseField_hexDigits h b.isLt

/-- A register-write line is read back as its write (R79). -/
theorem parseRegWriteLine_regWriteLine (w : RegWrite) : parseRegWriteLine (regWriteLine w) = some w := by
  have e1 : parseField (regWriteLine w) 1 2 = w.addr.toNat := by
    rw [regWriteLine_eq]; exact parseField_twoDigits (pre := [0x57#8]) w.addr rfl
  have e2 : parseField (regWriteLine w) 3 2 = w.value.toNat := by
    rw [regWriteLine_eq]
    have := parseField_twoDigits (pre := 0x57#8 :: twoDigits w.addr) (post := []) w.value (off := 3) rfl
    simpa using this
  simp [parseRegWriteLine, e1, e2]

theorem parseRegWriteLine_some {l : Line} {w : RegWrite} (h : parseRegWriteLine l = some w) : l = regWriteLine w := by
  simp only [parseRegWriteLine] at h
  split at h
  · rename_i e; cases h; exact e.symm
  · cases h

/-- An `s` line is read back as its three bytes (R47, R78). -/
theorem parseTimingLine_bytes (b1 b2 b3 : Byte) :
    parseTimingLine (0x73#8 :: (twoDigits b1 ++ twoDigits b2 ++ twoDigits b3)) = some ⟨b1, b2, b3⟩ := by
  have e1 : parseField (0x73#8 :: (twoDigits b1 ++ twoDigits b2 ++ twoDigits b3)) 1 2 = b1.toNat := by
    have := parseField_twoDigits (pre := [0x73#8]) (post := twoDigits b2 ++ twoDigits b3) b1 (off := 1) rfl
    simpa using this
  have h2 := b2.isLt
  have h3 := b3.isLt
  obtain ⟨v, hv⟩ : ∃ v : BitVec 16, v = BitVec.ofNat 16 (b2.toNat * 256 + b3.toNat) := ⟨_, rfl⟩
  have h16 : (v >>> 8).setWidth 8 = b2 ∧ v.setWidth 8 = b3 := by
    constructor <;> apply BitVec.eq_of_toNat_eq <;> simp [hv, Nat.shiftRight_eq_div_pow] <;> omega
  have hh : hex v.toNat 4 = twoDigits b2 ++ twoDigits b3 := by rw [hex_four, h16.1, h16.2]
  have e2 : parseField (0x73#8 :: (twoDigits b1 ++ twoDigits b2 ++ twoDigits b3)) 3 4 = v.toNat := by
    have hlt : v.toNat < 16 ^ 4 := v.isLt
    have := parseField_hexDigits (pre := 0x73#8 :: twoDigits b1) (post := []) (off := 3) rfl hlt
    rw [← hex_of_lt hlt, hh] at this
    simpa using this
  have hl : timingLine b1 v = 0x73#8 :: (twoDigits b1 ++ twoDigits b2 ++ twoDigits b3) := by
    rw [timingLine_eq, h16.1, h16.2]
  simp only [parseTimingLine, e1, e2, BitVec.ofNat_toNat, BitVec.setWidth_eq]
  simp [hl, h16.1, h16.2]

/-- What the target can do with a line: it is refused, or performed, and then only the register space and the timing
registers may differ, the register space by one register write and only for a `W` line (R52). -/
theorem performLine_cases (s : State) (l : Line) :
    s.performLine l = .refused .malformedDeviceLine ∨
    (∃ w, l = regWriteLine w ∧ s.performLine l = .next (s.writeTarget w)) ∨
    (l.head? ≠ some 0x57#8 ∧ ∃ t, s.performLine l = .next { s with timing := t }) := by
  unfold State.performLine
  cases l with
  | nil => exact .inr (.inr ⟨by simp, s.timing, rfl⟩)
  | cons b rest =>
    simp only [List.head?_cons]
    split_ifs with h1 h2 h3
    · cases hp : parseRegWriteLine (b :: rest) with
      | none => exact .inl rfl
      | some w => exact .inr (.inl ⟨w, parseRegWriteLine_some hp, rfl⟩)
    · cases hp : parseTimingLine (b :: rest) with
      | none => exact .inl rfl
      | some t => exact .inr (.inr ⟨fun e => h1 (Option.some.inj e), t, rfl⟩)
    · cases hp : parsePresetLine s.cfg (b :: rest) with
      | none => exact .inl rfl
      | some t => exact .inr (.inr ⟨fun e => h1 (Option.some.inj e), t, rfl⟩)
    · exact .inr (.inr ⟨fun e => h1 (Option.some.inj e), s.timing, rfl⟩)

/-- The target performs a register write line, a timing line and a preset line in their formats (R77 to R79). -/
theorem performLine_regWrite (s : State) (w : RegWrite) : s.performLine (regWriteLine w) = .next (s.writeTarget w) := by
  unfold State.performLine
  rw [parseRegWriteLine_regWriteLine]; rfl

theorem performLine_timing (s : State) (b1 b2 b3 : Byte) :
    s.performLine (0x73#8 :: (twoDigits b1 ++ twoDigits b2 ++ twoDigits b3)) = .next { s with timing := ⟨b1, b2, b3⟩ } := by
  unfold State.performLine
  rw [parseTimingLine_bytes]; rfl

theorem performLine_preset (s : State) (i : Fin 9) :
    s.performLine [0x53#8, s.cfg.presetChar[i]] =
      .next { s with timing := Config.presetTiming s.cfg.presetChar[i] } := by
  have h : s.cfg.presetChar.toList.contains s.cfg.presetChar[i] = true := by simp
  unfold State.performLine
  simp only [parsePresetLine, h, if_true]; rfl

/-- A line of any other first byte, and the empty line, change nothing (R52). -/
theorem performLine_other (s : State) {l : Line} (hW : l.head? ≠ some 0x57#8) (hs : l.head? ≠ some 0x73#8)
    (hS : l.head? ≠ some 0x53#8) : s.performLine l = .next s := by
  unfold State.performLine
  cases l with
  | nil => rfl
  | cons b l =>
    simp only [List.head?_cons, ne_eq, Option.some.injEq] at hW hs hS ⊢
    rw [if_neg (show ¬ b = ascii 'W' from hW), if_neg (show ¬ b = ascii 's' from hs), if_neg (show ¬ b = ascii 'S' from hS)]

/-- What a move of the host can do. -/
theorem hostStep_cases (s : State) :
    (s.host = [] ∧ s.hostStep = .fault .noRequest) ∨
    ∃ m moves, s.host = m :: moves ∧
      s.hostStep = .next (match m with
        | .request op o => { s with host := moves, req := ⟨true, op, o⟩ }
        | .await => { s with host := moves }
        | .send => { s with host := moves, wire := s.wire ++ wireBytes s.cfg.lineTerm s.rsp.lines }
        | .reset => State.resetBlock { s with host := moves }) := by
  unfold State.hostStep
  cases h : s.host with
  | nil => exact .inl ⟨rfl, rfl⟩
  | cons m moves => exact .inr ⟨m, moves, rfl, by cases m <;> rfl⟩

theorem lowerHex_bounds {d : Byte} (h : d ∈ lowerHex) : 0x20 ≤ d.toNat ∧ d.toNat ≤ 0x7E := lowerHex_printable d h

theorem printable_twoDigits (b : Byte) : Printable (twoDigits b) := fun _ h => lowerHex_bounds (twoDigits_mem h)

theorem printable_cons {b : Byte} {l : Line} (hb : 0x20 ≤ b.toNat ∧ b.toNat ≤ 0x7E) (h : Printable l) :
    Printable (b :: l) := by
  intro d hd
  rcases List.mem_cons.mp hd with rfl | hd
  · exact hb
  · exact h d hd

theorem printable_append {a b : Line} (ha : Printable a) (hb : Printable b) : Printable (a ++ b) := by
  intro d hd
  rcases List.mem_append.mp hd with hd | hd
  · exact ha d hd
  · exact hb d hd

/-- Register, timing and preset lines in their formats are lines of the block (R77 to R79). -/
theorem blockLine_regWrite (c : Cfg) (w : RegWrite) : BlockLine c (0x57#8 :: (twoDigits w.addr ++ twoDigits w.value)) :=
  ⟨printable_cons (by decide) (printable_append (printable_twoDigits _) (printable_twoDigits _)), .inr (.inl ⟨w, rfl⟩)⟩

theorem blockLine_timing (c : Cfg) (b1 b2 b3 : Byte) :
    BlockLine c (0x73#8 :: (twoDigits b1 ++ twoDigits b2 ++ twoDigits b3)) :=
  ⟨printable_cons (by decide)
      (printable_append (printable_append (printable_twoDigits _) (printable_twoDigits _)) (printable_twoDigits _)),
    .inr (.inr (.inl ⟨b1, b2, b3, rfl⟩))⟩

theorem blockLine_preset {c : Cfg} (h : c.textual) (i : Fin 9) : BlockLine c [0x53#8, c.presetChar[i]] :=
  ⟨printable_cons (by decide) (printable_cons (h.2 i) (by simp [Printable])), .inr (.inr (.inr ⟨i, rfl⟩))⟩

/-- A frame line is printable, and no register, timing or preset line. -/
theorem frameLine_printable {l : Line} (h : FrameLine l) : Printable l := by
  obtain ⟨e, r, id, dlc, data, -, -, -, rfl⟩ := h
  have hd : ∀ v n, Printable (digitText lowerHex (digitsIn 16 v n)) := fun v n => by
    rw [digitText_lowerHex]; exact fun d hd => lowerHex_bounds (hexDigits_mem d hd)
  refine printable_cons ?_ (printable_append (printable_append (hd _ _) (hd _ _)) fun d h => ?_)
  · revert e r; decide
  · obtain ⟨b, -, hb⟩ := List.mem_flatMap.mp h
    exact printable_twoDigits b d hb

theorem frameLine_head {l : Line} (h : FrameLine l) :
    l.head? ≠ some 0x57#8 ∧ l.head? ≠ some 0x73#8 ∧ l.head? ≠ some 0x53#8 := by
  obtain ⟨e, r, id, dlc, data, -, -, -, rfl⟩ := h
  simp only [List.head?_cons]
  revert e r; decide

/-- What FRAME_ENCODE writes is a line of the block (R72 to R75, R105). -/
theorem blockLine_frame {c : Cfg} (h : c.sourceFixed) {r : RawFrame} (ha : Acceptable c r) : BlockLine c (frameLine c r) := by
  have hf : FrameLine (frameLine c r) := by
    obtain ⟨g1, g2, g3, -⟩ := frame_params h
    have e := normFrame_ext_iff c r.id.toNat r.ext
    have e' : (normFrame c r.id.toNat r.ext).1.toNat = min r.id.toNat 0x1FFFFFFF := by
      rw [normFrame_id_toNat, g2]; rfl
    obtain ⟨-, a2, a3, a4⟩ := id ha
    rw [g3] at a2
    refine ⟨(normFrame c r.id.toNat r.ext).2, r.rtr, min r.id.toNat 0x1FFFFFFF, r.dlc.toNat, r.data, ?_, a2, ?_, ?_⟩
    · cases hx : (normFrame c r.id.toNat r.ext).2 with
      | true => simp
      | false => rw [hx, g1, e'] at e; simp at e; simp; omega
    · cases hr : r.rtr with
      | true => simp [a3 hr]
      | false => simp [a4 hr]
    · have hd : (if r.rtr then [] else r.data.flatMap fun b => hexDigits b.toNat 2) = r.data.flatMap twoDigits := by
        have hb : (fun b : Byte => hexDigits b.toNat 2) = twoDigits := by
          funext b; rw [← hex_two, hex_of_lt b.isLt]
        cases hr : r.rtr with
        | true => simp [a3 hr]
        | false => simp [hb]
      rw [frameLine_eq h ha, hd, digitText_lowerHex, digitText_lowerHex, idDigits_of_sourceFixed h, List.append_assoc]
      cases (normFrame c r.id.toNat r.ext).2 <;> cases r.rtr <;> rfl
  exact ⟨frameLine_printable hf, .inl hf⟩

/-- The target performs every line of the block: no such line is refused (R71). -/
theorem performLine_blockLine {s : State} {l : Line} (h : BlockLine s.cfg l) : ∃ t, s.performLine l = .next t := by
  rcases h.2 with hf | ⟨w, rfl⟩ | ⟨b1, b2, b3, rfl⟩ | ⟨i, rfl⟩
  · obtain ⟨h1, h2, h3⟩ := frameLine_head hf
    exact ⟨_, performLine_other s h1 h2 h3⟩
  · exact ⟨_, regWriteLine_eq w ▸ performLine_regWrite s w⟩
  · exact ⟨_, performLine_timing s b1 b2 b3⟩
  · exact ⟨_, performLine_preset s i⟩

/-- A line of the block holds no terminator (R70). -/
theorem lineTerm_not_mem {c : Cfg} (ht : c.textual) {l : Line} (h : BlockLine c l) : c.lineTerm ∉ l := by
  intro hm; have := (h.1 _ hm).1; have := ht.1; omega

/-- A wire of whole lines of the block gives its first line (R52). -/
theorem takeLine_lines {c : Cfg} (ht : c.textual) {ls : List Line} (h : ∀ l ∈ ls, BlockLine c l) :
    takeLine c.lineTerm (ls.flatMap fun l => l ++ [c.lineTerm]) = match ls with
      | [] => none
      | l :: ls => some (l, ls.flatMap fun l => l ++ [c.lineTerm]) := by
  cases ls with
  | nil => rfl
  | cons l ls => simpa using takeLine_append (lineTerm_not_mem ht (h l (by simp))) (ls.flatMap fun l => l ++ [c.lineTerm])

end Sys2Proof.Machine
end

