-- ==== Sys2Proof/Laws/Exec.lean ====
section
/-! SUPPORT. What an instruction and a step can do, said once: every meaning is the answer to an outcome that `CFG` and the
instruction fix, and a step is the block's, the target's or the host's. -/

namespace Sys2Proof.Machine

/-- The outcome an instruction's meaning answers with. -/
def outcomeOf (c : Cfg) : Instr → Except Err Result
  | .frameMake r => frameMake c r
  | .frameEncode r => frameEncode c r
  | .frameDecode l => frameDecode c l
  | .baudCompute b => baudCompute c b
  | .maskEncode p => .ok (.tuple (regs c p false))
  | .filterValueEncode p => .ok (.tuple (regs c p true))
  | .filterProgram cs => filterProgram c cs
  | .regWriteFormat w => .ok (.line (regWriteLine w))
  | .illegal _ _ => .error .illegalOp
  | .lineStdData l => frameDecode c (ascii 't' :: l)
  | .lineStdRemote l => frameDecode c (ascii 'r' :: l)
  | .lineExtData l => frameDecode c (ascii 'T' :: l)
  | .lineExtRemote l => frameDecode c (ascii 'R' :: l)
  | .linePreset l => frameDecode c (ascii 'S' :: l)
  | .lineTiming l => frameDecode c (ascii 's' :: l)
  | .lineRegWrite l => frameDecode c (ascii 'W' :: l)
  | .lineClose l => frameDecode c (ascii 'C' :: l)
  | .lineOpenActive l => frameDecode c (ascii 'O' :: l)
  | .lineOpenListen l => frameDecode c (ascii 'L' :: l)
  | .lineOpenLoopback l => frameDecode c (ascii 'l' :: l)
  | .lineFirmware l => frameDecode c (ascii 'v' :: l)
  | .lineHardware l => frameDecode c (ascii 'V' :: l)
  | .lineSerial l => frameDecode c (ascii 'N' :: l)
  | .lineAckLower l => frameDecode c (ascii 'z' :: l)
  | .lineAckUpper l => frameDecode c (ascii 'Z' :: l)
  | .byteBell l => frameDecode c (0x07#8 :: l)

theorem exec_eq (i : Instr) (s : State) : exec i s = s.complete (outcomeOf s.cfg i) := by cases i <;> rfl

/-- What an instruction can answer: its result with the status OK, or its error. -/
theorem exec_cases {i : Instr} {s t : State} (h : exec i s = .next t) :
    (∃ r, outcomeOf s.cfg i = .ok r ∧ t = s.respond statusOk (some r)) ∨
    ∃ e, outcomeOf s.cfg i = .error e ∧ t = s.raise e := by
  rw [exec_eq] at h
  cases ho : outcomeOf s.cfg i with
  | ok r => rw [ho] at h; cases h; exact .inl ⟨r, rfl, rfl⟩
  | error e => rw [ho] at h; cases h; exact .inr ⟨e, rfl, rfl⟩

theorem resetDue_eq_false {s : State} (h : s.host.head? ≠ some .reset) : s.resetDue = false := by
  simpa [State.resetDue] using h

theorem step_of_blockTurn {s : State} (h : s.blockTurn) : step s = blockStep s := by
  simp [step, resetDue_eq_false h.2, h.1]

theorem step_of_resetDue {s : State} (h : s.host.head? = some .reset) : step s = s.hostStep := by
  simp [step, State.resetDue, h]

theorem step_of_idle {s : State} (h : s.req.valid = false) (hr : s.host.head? ≠ some .reset) : step s = s.outsideStep := by
  simp [step, resetDue_eq_false hr, h]

theorem step_of_lineTurn {s : State} {l : Line} {rest : List Byte} (h : s.lineTurn l rest) :
    step s = State.performLine { s with wire := rest } l := by
  obtain ⟨h1, h2, h3, h4⟩ := h
  rw [step_of_idle h1 h2, State.outsideStep, h3, takeLine_append h4]

theorem step_of_hostTurn {s : State} (h : s.hostTurn) : step s = s.hostStep := by
  by_cases hr : s.host.head? = some .reset
  · exact step_of_resetDue hr
  · rw [step_of_idle h.1 hr, State.outsideStep, takeLine_eq_none.mpr h.2]

/-- What a block step that goes on is: the meaning of the decoded instruction, under a well-formed configuration. -/
theorem blockStep_next {s t : State} (h : blockStep s = .next t) :
    s.cfg.wf = true ∧ ∃ i, decode s.fetch = .ok i ∧ exec i s = .next t := by
  unfold blockStep at h
  split at h
  · rename_i hw
    refine ⟨hw, ?_⟩
    split at h
    · rename_i i hi; exact ⟨i, hi, h⟩
    · cases h
  · cases h

/-- Everything a step that goes on can be: the answer to a request, the target's performing of a line, or a move of the
host. -/
theorem step_cases {s t : State} (h : step s = .next t) :
    (s.blockTurn ∧ s.cfg.wf = true ∧ ∃ i, decode s.fetch = .ok i ∧ exec i s = .next t) ∨
    (∃ l rest, s.lineTurn l rest ∧ State.performLine { s with wire := rest } l = .next t) ∨
    (∃ m moves, s.host = m :: moves ∧ (m = .reset ∨ s.hostTurn) ∧ s.hostStep = .next t) := by
  by_cases hr : s.host.head? = some .reset
  · rw [step_of_resetDue hr] at h
    cases hh : s.host with
    | nil => rw [hh] at hr; cases hr
    | cons m moves =>
      rw [hh] at hr
      exact .inr (.inr ⟨m, moves, rfl, .inl (Option.some.inj hr), h⟩)
  · cases hv : s.req.valid with
    | true =>
      have hb : s.blockTurn := ⟨hv, hr⟩
      rw [step_of_blockTurn hb] at h
      exact .inl ⟨hb, blockStep_next h⟩
    | false =>
      rw [step_of_idle hv hr, State.outsideStep] at h
      cases ht : takeLine s.cfg.lineTerm s.wire with
      | some p =>
        rw [ht] at h
        obtain ⟨h1, h2⟩ := takeLine_eq_some ht
        exact .inr (.inl ⟨p.1, p.2, ⟨hv, hr, h1, h2⟩, h⟩)
      | none =>
        rw [ht] at h
        have hturn : s.hostTurn := ⟨hv, takeLine_eq_none.mp ht⟩
        rcases hostStep_cases s with ⟨-, hf⟩ | ⟨m, moves, hm, -⟩
        · rw [hf] at h; cases h
        · exact .inr (.inr ⟨m, moves, hm, .inr hturn, h⟩)

/-- FRAME_DECODE of a line with a frame letter answers its frame. -/
theorem frameDecode_answers (s : State) (e r : Bool) (rest : Line) :
    Answers (exec (.frameDecode (frameLetter e r :: rest)) s) s 0x00#8
      (some (.frame (decodeFrame s.cfg (frameLetter e r :: rest) e r))) := by
  rw [answers_iff, exec_eq, outcomeOf, frameDecode_letter]; rfl

/-- A decoded line kind is performed as FRAME_DECODE performs the whole line. -/
theorem exec_decodeLine (l : Line) (s : State) : exec (decodeLine l) s = exec (.frameDecode l) s := by
  cases l with
  | nil => rfl
  | cons b rest =>
    refine decodeLine_elim (P := fun i => exec i s = exec (.frameDecode (b :: rest)) s) b rest ?_ ?_ ?_ ?_ ?_ ?_ ?_ ?_ ?_ ?_ ?_ ?_
      ?_ ?_ ?_ ?_ ?_ ?_
    all_goals first | (rintro rfl; rfl) | exact fun _ => rfl

/-- A write list in a response is FILTER_PROGRAM's, with its writes' lines. -/
theorem program_result {i : Instr} {s t : State} {ws : List RegWrite} {ls : List Line} (h : exec i s = .next t)
    (hr : t.rsp.result = some (.program ws ls)) :
    ∃ cs p, i = .filterProgram cs ∧ placeChains s.cfg cs = .ok p ∧ ws = programWrites s.cfg p ∧ ls = ws.map regWriteLine := by
  rcases exec_cases h with ⟨x, hx, rfl⟩ | ⟨e, he, rfl⟩
  · simp at hr; subst hr
    have dl : ∀ l, frameDecode s.cfg l ≠ .ok (.program ws ls) := by
      intro l hl
      rcases frameDecode_cases s.cfg l with ⟨_, _, _, _, h'⟩ | ⟨h', _⟩ <;> rw [h'] at hl <;> cases hl
    cases i <;> simp only [outcomeOf] at hx <;> try exact absurd hx (dl _)
    case frameMake r => unfold frameMake at hx; split at hx <;> cases hx
    case frameEncode r => unfold frameEncode at hx; split at hx <;> cases hx
    case baudCompute b => unfold baudCompute at hx; split_ifs at hx; split at hx <;> cases hx
    case filterProgram cs =>
      rcases filterProgram_cases s.cfg cs with ⟨_, _, h'⟩ | ⟨p, hp, h'⟩ <;> rw [h'] at hx <;> cases hx
      exact ⟨cs, p, rfl, hp, rfl, rfl⟩
    all_goals cases hx
  · simp at hr

/-- A run's first step. -/
theorem run_succ {s t : State} (h : step s = .next t) (k : Nat) : core.run (k + 1) s = core.run k t := by
  have h' : core.step s = .next t := h
  simp only [Host.Core.run, h']

end Sys2Proof.Machine
end

