-- ==== Sys2Proof/Laws/Memory.lean ====
section
/-! SUPPORT. The register space: writing keeps its canonical form, a read after a write, and that canonical memories that
read alike are equal. -/

namespace Sys2Proof.Machine

@[simp] theorem Memory.read_nil (a : Nat) : Memory.read [] a = unlisted := rfl

theorem Memory.read_cons (c : Host.Cell) (m : Memory) (a : Nat) :
    Memory.read (c :: m) a = if a = c.1 then c.2 else Memory.read m a := rfl

theorem Memory.write_cons (c : Host.Cell) (m : Memory) (a : Nat) (v : Byte) :
    Memory.write (c :: m) a v =
      if a < c.1 then entry a v (c :: m) else if a = c.1 then entry a v m else c :: Memory.write m a v := rfl

theorem Memory.wf_tail {c : Host.Cell} {m : Memory} (h : Memory.wf (c :: m) = true) : Memory.wf m = true := by
  cases m with
  | nil => rfl
  | cons d m => simp only [Memory.wf, Bool.and_eq_true] at h; exact h.2

/-- In a canonical memory every later address is above the first. -/
theorem Memory.wf_head_lt {c : Host.Cell} {m : Memory} (h : Memory.wf (c :: m) = true) : ∀ d ∈ m, c.1 < d.1 := by
  induction m generalizing c with
  | nil => simp
  | cons e m ih =>
    have he := wf_tail h
    simp only [Memory.wf, Bool.and_eq_true, decide_eq_true_eq] at h
    intro d hd
    rcases List.mem_cons.mp hd with rfl | hd
    · exact h.1.1
    · exact Nat.lt_trans h.1.1 (ih he d hd)

/-- The canonical form of a memory, entry by entry. -/
theorem Memory.wf_cons_iff {c : Host.Cell} {m : Memory} :
    Memory.wf (c :: m) = true ↔ c.1 < 256 ∧ c.2 ≠ unlisted ∧ (∀ d ∈ m, c.1 < d.1) ∧ Memory.wf m = true := by
  constructor
  · intro h
    refine ⟨?_, ?_, wf_head_lt h, wf_tail h⟩
    · induction m generalizing c with
      | nil => simp only [Memory.wf, Bool.and_eq_true, decide_eq_true_eq] at h; exact h.1
      | cons d m ih =>
        have := ih (wf_tail h)
        have := wf_head_lt h d (by simp)
        omega
    · cases m <;> (simp only [Memory.wf, Bool.and_eq_true, decide_eq_true_eq] at h)
      · exact h.2
      · exact h.1.2
  · rintro ⟨h1, h2, h3, h4⟩
    cases m with
    | nil => simp [Memory.wf, h1, h2]
    | cons d m => simp [Memory.wf, h4, h2, h3 d (by simp)]

/-- A register below every listed one holds what an unlisted one does. -/
theorem Memory.read_of_lt {m : Memory} {a : Nat} (h : ∀ d ∈ m, a < d.1) : Memory.read m a = unlisted := by
  induction m with
  | nil => rfl
  | cons d m ih =>
    rw [read_cons, if_neg (Nat.ne_of_lt (h d (by simp))), ih fun e he => h e (by simp [he])]

theorem Memory.mem_entry {a : Nat} {v : Byte} {m : Memory} {d : Host.Cell} (h : d ∈ entry a v m) : d = (a, v) ∨ d ∈ m := by
  unfold entry at h
  split at h
  · exact .inr h
  · exact List.mem_cons.mp h

theorem Memory.wf_entry {a : Nat} {v : Byte} {m : Memory} (ha : a < 256) (hm : ∀ d ∈ m, a < d.1)
    (h : Memory.wf m = true) : Memory.wf (entry a v m) = true := by
  unfold entry
  split
  · exact h
  · rename_i hv; exact wf_cons_iff.mpr ⟨ha, hv, hm, h⟩

theorem Memory.read_entry_other {a b : Nat} (v : Byte) (m : Memory) (hab : b ≠ a) :
    Memory.read (entry a v m) b = Memory.read m b := by
  unfold entry
  split
  · rfl
  · rw [read_cons, if_neg hab]

theorem Memory.read_entry_same {a : Nat} (v : Byte) {m : Memory} (hm : ∀ d ∈ m, a < d.1) :
    Memory.read (entry a v m) a = v := by
  unfold entry
  split
  · rename_i hv; rw [read_of_lt hm, hv]
  · rw [read_cons, if_pos rfl]

theorem Memory.mem_write {m : Memory} {a : Nat} {v : Byte} {d : Host.Cell} (h : d ∈ Memory.write m a v) :
    d = (a, v) ∨ d ∈ m := by
  induction m with
  | nil => exact mem_entry h
  | cons c m ih =>
    rw [write_cons] at h
    split at h
    · exact mem_entry h
    · split at h
      · exact (mem_entry h).imp_right fun h => by simp [h]
      · rcases List.mem_cons.mp h with rfl | h
        · exact .inr (by simp)
        · exact (ih h).imp_right fun h => by simp [h]

/-- A write keeps the canonical form. -/
theorem Memory.wf_write {m : Memory} (h : Memory.wf m = true) (a : Byte) (v : Byte) :
    Memory.wf (Memory.write m a.toNat v) = true := by
  have ha : a.toNat < 256 := a.isLt
  induction m with
  | nil => exact wf_entry ha (by simp) rfl
  | cons c m ih =>
    obtain ⟨h1, h2, h3, h4⟩ := wf_cons_iff.mp h
    rw [write_cons]
    split
    · rename_i hlt
      refine wf_entry ha (fun d hd => ?_) h
      rcases List.mem_cons.mp hd with rfl | hd
      · exact hlt
      · exact Nat.lt_trans hlt (h3 d hd)
    · split
      · rename_i heq
        exact wf_entry ha (fun d hd => heq ▸ h3 d hd) h4
      · refine wf_cons_iff.mpr ⟨h1, h2, fun d hd => ?_, ih h4⟩
        rcases mem_write hd with rfl | hd
        · exact Nat.lt_of_le_of_ne (by omega) (by omega)
        · exact h3 d hd

/-- A register reads what was written to it last. -/
theorem Memory.read_write_same {m : Memory} (h : Memory.wf m = true) (a : Nat) (v : Byte) :
    Memory.read (Memory.write m a v) a = v := by
  induction m with
  | nil => exact read_entry_same v (by simp)
  | cons c m ih =>
    obtain ⟨-, -, h3, h4⟩ := wf_cons_iff.mp h
    rw [write_cons]
    split
    · rename_i hlt
      refine read_entry_same v fun d hd => ?_
      rcases List.mem_cons.mp hd with rfl | hd
      · exact hlt
      · exact Nat.lt_trans hlt (h3 d hd)
    · split
      · rename_i heq; exact read_entry_same v fun d hd => heq ▸ h3 d hd
      · rename_i hne; rw [read_cons, if_neg hne, ih h4]

/-- Every other register reads as before. -/
theorem Memory.read_write_other (m : Memory) {a b : Nat} (v : Byte) (hab : b ≠ a) :
    Memory.read (Memory.write m a v) b = Memory.read m b := by
  induction m with
  | nil => exact read_entry_other v [] hab
  | cons c m ih =>
    rw [write_cons]
    split
    · exact read_entry_other v _ hab
    · split
      · rename_i heq; rw [read_entry_other v m hab, read_cons, if_neg (heq ▸ hab)]
      · rw [read_cons, read_cons, ih]

/-- Canonical memories that read alike are equal. -/
theorem Memory.ext_read {m m' : Memory} (h : Memory.wf m = true) (h' : Memory.wf m' = true)
    (hr : ∀ a, Memory.read m a = Memory.read m' a) : m = m' := by
  induction m generalizing m' with
  | nil =>
    cases m' with
    | nil => rfl
    | cons c m' => exact absurd (by simpa [read_cons] using (hr c.1).symm) (wf_cons_iff.mp h').2.1
  | cons c m ih =>
    obtain ⟨-, cv, c3, c4⟩ := wf_cons_iff.mp h
    cases m' with
    | nil => exact absurd (by simpa [read_cons] using hr c.1) cv
    | cons d m' =>
      obtain ⟨-, dv, d3, d4⟩ := wf_cons_iff.mp h'
      have above {x : Nat} {e : Host.Cell} {l : Memory} (hx : x < e.1) (hl : ∀ d ∈ l, e.1 < d.1) :
          Memory.read (e :: l) x = unlisted := read_of_lt fun f hf => by
        rcases List.mem_cons.mp hf with rfl | hf
        · exact hx
        · exact Nat.lt_trans hx (hl f hf)
      have hcd : c.1 = d.1 := by
        rcases Nat.lt_trichotomy c.1 d.1 with hlt | heq | hgt
        · have hc := hr c.1; rw [above hlt d3, read_cons, if_pos rfl] at hc; exact absurd hc cv
        · exact heq
        · have hd := hr d.1; rw [above hgt c3, read_cons, if_pos rfl] at hd; exact absurd hd.symm dv
      have hv : c.2 = d.2 := by have := hr c.1; simpa [read_cons, hcd] using this
      have htail : m = m' := by
        refine ih c4 d4 fun a => ?_
        by_cases ha : a = c.1
        · subst ha
          rw [read_of_lt c3, read_of_lt (by rw [hcd]; exact d3)]
        · have := hr a
          simpa [read_cons, ha, hcd ▸ ha] using this
      rw [htail, Prod.ext hcd hv]

/-- Writing a list of registers keeps the canonical form. -/
theorem Memory.wf_foldl_write {m : Memory} (h : Memory.wf m = true) (ws : List RegWrite) :
    Memory.wf (ws.foldl (fun m w => Memory.write m w.addr.toNat w.value) m) = true := by
  induction ws generalizing m with
  | nil => exact h
  | cons w ws ih => exact ih (Memory.wf_write h _ _)

/-- What a register reads as after a list of writes. -/
theorem Memory.read_foldl_write (ws : List RegWrite) {m : Memory} (h : Memory.wf m = true) (a : Nat) :
    Memory.read (ws.foldl (fun m w => Memory.write m w.addr.toNat w.value) m) a =
      ws.foldl (fun o w => if a = w.addr.toNat then w.value else o) (Memory.read m a) := by
  induction ws generalizing m with
  | nil => rfl
  | cons w ws ih =>
    rw [List.foldl_cons, List.foldl_cons, ih (Memory.wf_write h _ _)]
    congr 1
    split
    · rename_i ha; rw [ha]; exact Memory.read_write_same h _ _
    · rename_i ha; exact Memory.read_write_other _ _ ha

/-- A register no write of a list is to keeps what it held. -/
theorem foldl_write_of_not_mem (ws : List RegWrite) (a : Nat) (h : ∀ w ∈ ws, w.addr.toNat ≠ a) (o : Byte) :
    ws.foldl (fun o w => if a = w.addr.toNat then w.value else o) o = o := by
  induction ws generalizing o with
  | nil => rfl
  | cons w ws ih =>
    rw [List.foldl_cons, if_neg fun e => h w (by simp) e.symm]
    exact ih (fun w hw => h w (by simp [hw])) o

/-- A register some write of a list is to ends with the same value whatever it held. -/
theorem foldl_write_of_mem (ws : List RegWrite) (a : Nat) (h : ∃ w ∈ ws, w.addr.toNat = a) (o o' : Byte) :
    ws.foldl (fun o w => if a = w.addr.toNat then w.value else o) o =
      ws.foldl (fun o w => if a = w.addr.toNat then w.value else o) o' := by
  induction ws generalizing o o' with
  | nil => obtain ⟨_, h, _⟩ := h; cases h
  | cons w ws ih =>
    rw [List.foldl_cons, List.foldl_cons]
    by_cases ha : a = w.addr.toNat
    · rw [if_pos ha, if_pos ha]
    · rw [if_neg ha, if_neg ha]
      refine ih ?_ o o'
      obtain ⟨x, hx, hxa⟩ := h
      rcases List.mem_cons.mp hx with rfl | hx
      · exact absurd hxa.symm ha
      · exact ⟨x, hx, hxa⟩

end Sys2Proof.Machine
end

