-- ==== Sys2Proof/Laws/PerInstr.lean ====
section
/-! SUPPORT. One lemma for each instruction: the request it is encoded as holds the operand record its opcode selects (R22,
R61), so a host that places the encodings of well-formed instructions is never refused for its operands. -/

open Sys2Proof Sys2Proof.Machine

/-- The encoding of a well-formed instruction is a typed request. -/
def Sys2Proof.Laws.EncodeTyped.Statement (i : Instr) : Prop :=
  i.wf = true → TypedRequest (encode i).opcode (encode i).operands

theorem Sys2Proof.Laws.EncodeTyped.frameMake (r : RawFrame) : Sys2Proof.Laws.EncodeTyped.Statement (.frameMake r) :=
  fun _ => trivial

theorem Sys2Proof.Laws.EncodeTyped.frameEncode (r : RawFrame) : Sys2Proof.Laws.EncodeTyped.Statement (.frameEncode r) :=
  fun _ => trivial

theorem Sys2Proof.Laws.EncodeTyped.frameDecode (l : Line) : Sys2Proof.Laws.EncodeTyped.Statement (.frameDecode l) :=
  fun _ => trivial

theorem Sys2Proof.Laws.EncodeTyped.baudCompute (b : BitVec 32) : Sys2Proof.Laws.EncodeTyped.Statement (.baudCompute b) :=
  fun _ => trivial

theorem Sys2Proof.Laws.EncodeTyped.maskEncode (p : IdPattern) : Sys2Proof.Laws.EncodeTyped.Statement (.maskEncode p) :=
  fun _ => trivial

theorem Sys2Proof.Laws.EncodeTyped.filterValueEncode (p : IdPattern) : Sys2Proof.Laws.EncodeTyped.Statement (.filterValueEncode p) :=
  fun _ => trivial

theorem Sys2Proof.Laws.EncodeTyped.filterProgram (cs : List FilterChain) : Sys2Proof.Laws.EncodeTyped.Statement (.filterProgram cs) :=
  fun _ => trivial

theorem Sys2Proof.Laws.EncodeTyped.regWriteFormat (w : RegWrite) : Sys2Proof.Laws.EncodeTyped.Statement (.regWriteFormat w) :=
  fun _ => trivial

theorem Sys2Proof.Laws.EncodeTyped.illegal (op : Byte) (o : Operands) : Sys2Proof.Laws.EncodeTyped.Statement (.illegal op o) :=by
  intro h
  simp only [Instr.wf, unassignedOpcode] at h
  show TypedRequest op o
  unfold TypedRequest
  split
  all_goals first
    | trivial
    | (simp only [Bool.or_eq_true, Bool.and_eq_true, beq_iff_eq, decide_eq_true_eq] at h
       simp only [List.mem_cons, List.not_mem_nil, or_false]
       omega)

theorem Sys2Proof.Laws.EncodeTyped.lineStdData (rest : Line) : Sys2Proof.Laws.EncodeTyped.Statement (.lineStdData rest) :=
  fun _ => trivial

theorem Sys2Proof.Laws.EncodeTyped.lineStdRemote (rest : Line) : Sys2Proof.Laws.EncodeTyped.Statement (.lineStdRemote rest) :=
  fun _ => trivial

theorem Sys2Proof.Laws.EncodeTyped.lineExtData (rest : Line) : Sys2Proof.Laws.EncodeTyped.Statement (.lineExtData rest) :=
  fun _ => trivial

theorem Sys2Proof.Laws.EncodeTyped.lineExtRemote (rest : Line) : Sys2Proof.Laws.EncodeTyped.Statement (.lineExtRemote rest) :=
  fun _ => trivial

theorem Sys2Proof.Laws.EncodeTyped.linePreset (rest : Line) : Sys2Proof.Laws.EncodeTyped.Statement (.linePreset rest) :=
  fun _ => trivial

theorem Sys2Proof.Laws.EncodeTyped.lineTiming (rest : Line) : Sys2Proof.Laws.EncodeTyped.Statement (.lineTiming rest) :=
  fun _ => trivial

theorem Sys2Proof.Laws.EncodeTyped.lineRegWrite (rest : Line) : Sys2Proof.Laws.EncodeTyped.Statement (.lineRegWrite rest) :=
  fun _ => trivial

theorem Sys2Proof.Laws.EncodeTyped.lineClose (rest : Line) : Sys2Proof.Laws.EncodeTyped.Statement (.lineClose rest) :=
  fun _ => trivial

theorem Sys2Proof.Laws.EncodeTyped.lineOpenActive (rest : Line) : Sys2Proof.Laws.EncodeTyped.Statement (.lineOpenActive rest) :=
  fun _ => trivial

theorem Sys2Proof.Laws.EncodeTyped.lineOpenListen (rest : Line) : Sys2Proof.Laws.EncodeTyped.Statement (.lineOpenListen rest) :=
  fun _ => trivial

theorem Sys2Proof.Laws.EncodeTyped.lineOpenLoopback (rest : Line) : Sys2Proof.Laws.EncodeTyped.Statement (.lineOpenLoopback rest) :=
  fun _ => trivial

theorem Sys2Proof.Laws.EncodeTyped.lineFirmware (rest : Line) : Sys2Proof.Laws.EncodeTyped.Statement (.lineFirmware rest) :=
  fun _ => trivial

theorem Sys2Proof.Laws.EncodeTyped.lineHardware (rest : Line) : Sys2Proof.Laws.EncodeTyped.Statement (.lineHardware rest) :=
  fun _ => trivial

theorem Sys2Proof.Laws.EncodeTyped.lineSerial (rest : Line) : Sys2Proof.Laws.EncodeTyped.Statement (.lineSerial rest) :=
  fun _ => trivial

theorem Sys2Proof.Laws.EncodeTyped.lineAckLower (rest : Line) : Sys2Proof.Laws.EncodeTyped.Statement (.lineAckLower rest) :=
  fun _ => trivial

theorem Sys2Proof.Laws.EncodeTyped.lineAckUpper (rest : Line) : Sys2Proof.Laws.EncodeTyped.Statement (.lineAckUpper rest) :=
  fun _ => trivial

theorem Sys2Proof.Laws.EncodeTyped.byteBell (rest : Line) : Sys2Proof.Laws.EncodeTyped.Statement (.byteBell rest) :=
  fun _ => trivial
end

