-- ==== Sys2Proof/Tests/Slice0.lean ====
section
/-! SUPPORT. Tests. Expected results are the spec's own: its vectors (`95_test_vectors.md`, cited by their numbers) and its
encodings, written out. Then, for each statement with hypotheses, a state and operands that meet them. -/

open Sys2Proof Sys2Proof.Machine

namespace Sys2Proof.Tests

set_option maxRecDepth 20000

/-! ### Well-formedness: the ill-formed terms each check refuses -/

theorem test_wf_refuses_illegal_at_an_assigned_opcode :
    ∀ op ∈ [0x01#8, 0x02#8, 0x03#8, 0x10#8, 0x20#8, 0x21#8, 0x22#8, 0x23#8], (Instr.illegal op .none).wf = false := by decide

theorem test_wf_accepts_illegal_elsewhere :
    ∀ op ∈ [0x00#8, 0x04#8, 0x0F#8, 0x11#8, 0x1F#8, 0x24#8, 0xFF#8], (Instr.illegal op .none).wf = true := by decide

theorem test_wf_refuses_frameDecode_of_a_line_kind :
    ∀ b ∈ lineFirstBytes, (Instr.frameDecode [b, 0x30#8]).wf = false := by decide

theorem test_wf_accepts_frameDecode_of_no_kind :
    (Instr.frameDecode []).wf = true ∧ (Instr.frameDecode [0x20#8, 0x74#8]).wf = true := by decide

/-! R3, one ill-formed configuration for each clause. -/

theorem test_cfg_spec_wf : Cfg.spec.wf = true := by decide
theorem test_cfg_refuses_no_oscillator : ({ Cfg.spec with oscHz := 0 } : Cfg).wf = false := by decide
theorem test_cfg_refuses_empty_range : ({ Cfg.spec with xMin := 24 } : Cfg).wf = false := by decide
theorem test_cfg_refuses_short_table : ({ Cfg.spec with cnfTable := [0x9203#16] } : Cfg).wf = false := by decide
theorem test_cfg_refuses_divisors :
    ({ Cfg.spec with xbrpMin := 0 } : Cfg).wf = false ∧ ({ Cfg.spec with xbrpMin := 3 } : Cfg).wf = false ∧
    ({ Cfg.spec with xbrpMax := 130 } : Cfg).wf = false ∧ ({ Cfg.spec with xbrpMax := 127 } : Cfg).wf = false ∧
    ({ Cfg.spec with xbrpMin := 6, xbrpMax := 4 } : Cfg).wf = false := by decide
theorem test_cfg_refuses_equal_rates :
    ({ Cfg.spec with presetRates := Cfg.spec.presetRates.set 0 20000#32 } : Cfg).wf = false := by decide
theorem test_cfg_refuses_mask_past_the_end :
    ({ Cfg.spec with maskBase0 := 0xF9#8 } : Cfg).wf = false ∧ ({ Cfg.spec with maskBase0 := 0xF8#8 } : Cfg).wf = true := by decide
theorem test_cfg_refuses_filter_past_the_end :
    ({ Cfg.spec with filterBase := Cfg.spec.filterBase.set 5 0xFD#8 } : Cfg).wf = false := by decide

/-! ### Decoding: each row's word, and a request of each instruction written out byte by byte (R61, R62, R72 to R89) -/

theorem test_table_words_of_requests :
    decodeTableWord 8 0x01 = some (.frameMake ⟨0, false, false, 0, []⟩) ∧
    decodeTableWord 8 0x02 = some (.frameEncode ⟨0, false, false, 0, []⟩) ∧
    decodeTableWord 8 0x03 = some (.frameDecode []) ∧ decodeTableWord 8 0x10 = some (.baudCompute 0) ∧
    decodeTableWord 8 0x20 = some (.maskEncode ⟨.std, 0, 0, 0⟩) ∧
    decodeTableWord 8 0x21 = some (.filterValueEncode ⟨.std, 0, 0, 0⟩) ∧
    decodeTableWord 8 0x22 = some (.filterProgram []) ∧ decodeTableWord 8 0x23 = some (.regWriteFormat ⟨0, 0⟩) ∧
    decodeTableWord 8 0x00 = some (.illegal 0x00 .none) ∧ decodeTableWord 8 0xFF = some (.illegal 0xFF .none) := by decide

theorem test_table_words_of_lines :
    decodeTableWord 8 0x74 = some (.lineStdData []) ∧ decodeTableWord 8 0x72 = some (.lineStdRemote []) ∧
    decodeTableWord 8 0x54 = some (.lineExtData []) ∧ decodeTableWord 8 0x52 = some (.lineExtRemote []) ∧
    decodeTableWord 8 0x53 = some (.linePreset []) ∧ decodeTableWord 8 0x73 = some (.lineTiming []) ∧
    decodeTableWord 8 0x57 = some (.lineRegWrite []) ∧ decodeTableWord 8 0x43 = some (.lineClose []) ∧
    decodeTableWord 8 0x4F = some (.lineOpenActive []) ∧ decodeTableWord 8 0x4C = some (.lineOpenListen []) ∧
    decodeTableWord 8 0x6C = some (.lineOpenLoopback []) ∧ decodeTableWord 8 0x76 = some (.lineFirmware []) ∧
    decodeTableWord 8 0x56 = some (.lineHardware []) ∧ decodeTableWord 8 0x4E = some (.lineSerial []) ∧
    decodeTableWord 8 0x7A = some (.lineAckLower []) ∧ decodeTableWord 8 0x5A = some (.lineAckUpper []) ∧
    decodeTableWord 8 0x07 = some (.byteBell []) := by decide

/-- E4's operands. -/
def rawE4 : RawFrame := ⟨0x7FF, false, false, 2, [0xAB, 0x01]⟩

theorem test_decode_frameMake : decode ⟨0b00000001, .rawFrame rawE4⟩ = .ok (.frameMake rawE4) := rfl
theorem test_decode_frameEncode : decode ⟨0b00000010, .rawFrame rawE4⟩ = .ok (.frameEncode rawE4) := rfl
theorem test_decode_frameDecode : decode ⟨0b00000011, .line [0x20, 0x74]⟩ = .ok (.frameDecode [0x20, 0x74]) := rfl
theorem test_decode_baudCompute : decode ⟨0b00010000, .baud 83333⟩ = .ok (.baudCompute 83333) := rfl
theorem test_decode_maskEncode :
    decode ⟨0b00100000, .pattern ⟨.ext, 1, 2, 3⟩⟩ = .ok (.maskEncode ⟨.ext, 1, 2, 3⟩) := rfl
theorem test_decode_filterValueEncode :
    decode ⟨0b00100001, .pattern ⟨.std, 1, 2, 3⟩⟩ = .ok (.filterValueEncode ⟨.std, 1, 2, 3⟩) := rfl
theorem test_decode_filterProgram :
    decode ⟨0b00100010, .chains [⟨⟨.std, 1, 2, 3⟩, []⟩]⟩ = .ok (.filterProgram [⟨⟨.std, 1, 2, 3⟩, []⟩]) := rfl
theorem test_decode_regWriteFormat : decode ⟨0b00100011, .regWrite ⟨0x24, 0xFE⟩⟩ = .ok (.regWriteFormat ⟨0x24, 0xFE⟩) := rfl
theorem test_decode_illegal : decode ⟨0b00100100, .baud 5⟩ = .ok (.illegal 0x24 (.baud 5)) := rfl
theorem test_decode_lineStdData :
    decode ⟨3, .line [0x74, 0x31, 0x32, 0x33, 0x30]⟩ = .ok (.lineStdData [0x31, 0x32, 0x33, 0x30]) := rfl
theorem test_decode_lineStdRemote :
    decode ⟨3, .line [0x72, 0x30, 0x30, 0x33, 0x37]⟩ = .ok (.lineStdRemote [0x30, 0x30, 0x33, 0x37]) := rfl
theorem test_decode_lineExtData : decode ⟨3, .line [0x54, 0x31]⟩ = .ok (.lineExtData [0x31]) := rfl
theorem test_decode_lineExtRemote : decode ⟨3, .line [0x52, 0x31]⟩ = .ok (.lineExtRemote [0x31]) := rfl
theorem test_decode_linePreset : decode ⟨3, .line [0x53, 0x34]⟩ = .ok (.linePreset [0x34]) := rfl
theorem test_decode_lineTiming : decode ⟨3, .line [0x73, 0x63]⟩ = .ok (.lineTiming [0x63]) := rfl
theorem test_decode_lineRegWrite :
    decode ⟨3, .line [0x57, 0x32, 0x30, 0x30, 0x30]⟩ = .ok (.lineRegWrite [0x32, 0x30, 0x30, 0x30]) := rfl
theorem test_decode_lineClose : decode ⟨3, .line [0x43]⟩ = .ok (.lineClose []) := rfl
theorem test_decode_lineOpenActive : decode ⟨3, .line [0x4F]⟩ = .ok (.lineOpenActive []) := rfl
theorem test_decode_lineOpenListen : decode ⟨3, .line [0x4C]⟩ = .ok (.lineOpenListen []) := rfl
theorem test_decode_lineOpenLoopback : decode ⟨3, .line [0x6C]⟩ = .ok (.lineOpenLoopback []) := rfl
theorem test_decode_lineFirmware : decode ⟨3, .line [0x76, 0x31]⟩ = .ok (.lineFirmware [0x31]) := rfl
theorem test_decode_lineHardware : decode ⟨3, .line [0x56, 0x31]⟩ = .ok (.lineHardware [0x31]) := rfl
theorem test_decode_lineSerial : decode ⟨3, .line [0x4E, 0x31]⟩ = .ok (.lineSerial [0x31]) := rfl
theorem test_decode_lineAckLower : decode ⟨3, .line [0x7A]⟩ = .ok (.lineAckLower []) := rfl
theorem test_decode_lineAckUpper : decode ⟨3, .line [0x5A]⟩ = .ok (.lineAckUpper []) := rfl
theorem test_decode_byteBell : decode ⟨3, .line [0x07]⟩ = .ok (.byteBell []) := rfl
theorem test_decode_refuses_another_record :
    decode ⟨0x10, .line []⟩ = .error (.operandRecordMismatch 0x10) ∧
    decode ⟨0x03, .none⟩ = .error (.operandRecordMismatch 0x03) := ⟨rfl, rfl⟩

/-! ### The assembler's texts (R64), as the programs P1 to P3 write them -/

theorem test_assemble_frameMake :
    assemble (asciiText "FRAME_MAKE id=0x800, ext=0, rtr=0, dlc=0, data=[]") =
      some ⟨0x01, .rawFrame ⟨0x800, false, false, 0, []⟩⟩ := by decide
theorem test_assemble_frameEncode :
    assemble (asciiText "FRAME_ENCODE id=0x7FF, ext=0, rtr=1, dlc=2, data=[0xAB, 0x01]") =
      some ⟨0x02, .rawFrame ⟨0x7FF, false, true, 2, [0xAB, 0x01]⟩⟩ := by decide
theorem test_assemble_frameDecode :
    assemble (asciiText "FRAME_DECODE \"t1230\"") = some ⟨0x03, .line [0x74, 0x31, 0x32, 0x33, 0x30]⟩ := by decide
theorem test_assemble_baudCompute : assemble (asciiText "BAUD_COMPUTE 83333") = some ⟨0x10, .baud 83333⟩ := by decide
theorem test_assemble_patterns :
    assemble (asciiText "MASK_ENCODE STD id=0x7FF, d0=0xFF, d1=0x00") = some ⟨0x20, .pattern ⟨.std, 0x7FF, 0xFF, 0⟩⟩ ∧
    assemble (asciiText "FILTER_VALUE_ENCODE EXT id=0b101") = some ⟨0x21, .pattern ⟨.ext, 5, 0, 0⟩⟩ := by decide
theorem test_assemble_filterProgram :
    assemble (asciiText "FILTER_PROGRAM [" ++ [0x7B] ++ asciiText "mask: STD id=0x7FF, filters: [STD id=1, EXT id=2, d0=3]"
      ++ [0x7D] ++ asciiText "]") =
      some ⟨0x22, .chains [⟨⟨.std, 0x7FF, 0, 0⟩, [⟨.std, 1, 0, 0⟩, ⟨.ext, 2, 3, 0⟩]⟩]⟩ := by decide
theorem test_assemble_regWriteFormat :
    assemble (asciiText "REG_WRITE_FORMAT 0x24, 0xFE") = some ⟨0x23, .regWrite ⟨0x24, 0xFE⟩⟩ := by decide
theorem test_assemble_refuses :
    assemble (asciiText "REG_WRITE_FORMAT 0x100, 0") = none ∧ assemble (asciiText "FRAME_DECODE t1230") = none ∧
    assemble (asciiText "BAUD_COMPUTE 1 2") = none ∧ assemble (asciiText "NOP") = none := by decide

/-! ### One step from reset with a request placed -/

/-- The reset state with a request in REQ. -/
def placed (opcode : Byte) (operands : Operands) : State := { State.reset with req := ⟨true, opcode, operands⟩ }

/-- The response the step of a request writes. -/
def answer (opcode : Byte) (operands : Operands) : Option Rsp :=
  match step (placed opcode operands) with
  | .next t => if t.req.valid then none else some t.rsp
  | _ => none

def okay (r : Result) : Option Rsp := some ⟨true, 0x00, some r⟩

def failed (status : Byte) : Option Rsp := some ⟨true, status, none⟩

/-- S2b: the identifier saturates and forces the extended flag. -/
theorem test_frameMake_S2b :
    answer 0x01 (.rawFrame ⟨0xFFFFFFFF, false, false, 0, []⟩) = okay (.frame ⟨0x1FFFFFFF, true, false, 0, []⟩) := by decide
theorem test_frameMake_E13 : answer 0x01 (.rawFrame ⟨0, false, false, 2, [1]⟩) = failed 0x01 := by decide
theorem test_frameEncode_E10 :
    answer 0x02 (.rawFrame ⟨0x1ABCDEF0, true, false, 3, [0x00, 0x7F, 0x80]⟩) =
      okay (.line (asciiText "T1abcdef03007f80")) := by decide
theorem test_frameEncode_E14 : answer 0x02 (.rawFrame ⟨0, false, true, 9, []⟩) = failed 0x01 := by decide
theorem test_frameDecode_DV28 : answer 0x03 (.line []) = failed 0x04 := by decide
theorem test_frameDecode_DV29 : answer 0x03 (.line (asciiText " t1230")) = failed 0x04 := by decide
/-- S7: of the ties 12, 16 and 18 the first wins. -/
theorem test_baudCompute_S7 :
    answer 0x10 (.baud 83333) =
      okay (.baud (.custom ⟨288, 12, 24, 11, 0xCB, 0x9303, 0, asciiText "scb9303"⟩)) := by decide
/-- The candidate 16 rounds up at a remainder of 10. -/
theorem test_baudCompute_12000 :
    answer 0x10 (.baud 12000) = okay (.baud (.custom ⟨2000, 20, 100, 49, 0xF1, 0xAD06, 0, asciiText "sf1ad06"⟩)) := by decide
theorem test_maskEncode_F1 : answer 0x20 (.pattern ⟨.std, 0x7FF, 0xFF, 0⟩) = okay (.tuple ⟨0xFF, 0xE0, 0xFF, 0⟩) := by decide
theorem test_maskEncode_F12 : answer 0x20 (.pattern ⟨.ext, 0x12345678, 0, 0⟩) = okay (.tuple ⟨0x91, 0xA0, 0x56, 0x78⟩) := by decide
theorem test_filterValueEncode_F11 :
    answer 0x21 (.pattern ⟨.ext, 0x12345678, 0, 0⟩) = okay (.tuple ⟨0x91, 0xA8, 0x56, 0x78⟩) := by decide
theorem test_filterValueEncode_F2 :
    answer 0x21 (.pattern ⟨.std, 0x123, 0x12, 0x34⟩) = okay (.tuple ⟨0x24, 0x60, 0x12, 0x34⟩) := by decide

/-- A chain of n filters. -/
def chainOf (n : Nat) : FilterChain := ⟨⟨.std, 0x7FF, 0, 0⟩, List.replicate n ⟨.std, 0x123, 0, 0⟩⟩

/-- FP8: three and three do not swap, and slot 0 holds two. -/
theorem test_filterProgram_FP8 : answer 0x22 (.chains [chainOf 3, chainOf 3]) = failed 0x03 := by decide
/-- S8: no chain writes both masks zero. -/
theorem test_filterProgram_S8 :
    answer 0x22 (.chains []) =
      okay (.program [⟨0x20, 0⟩, ⟨0x21, 0⟩, ⟨0x22, 0⟩, ⟨0x23, 0⟩, ⟨0x24, 0⟩, ⟨0x25, 0⟩, ⟨0x26, 0⟩, ⟨0x27, 0⟩]
        (["W2000", "W2100", "W2200", "W2300", "W2400", "W2500", "W2600", "W2700"].map asciiText)) := by decide
theorem test_regWriteFormat_24fe : answer 0x23 (.regWrite ⟨0x24, 0xFE⟩) = okay (.line (asciiText "W24fe")) := by decide
theorem test_regWriteFormat_0ab0 : answer 0x23 (.regWrite ⟨0x0A, 0xB0⟩) = okay (.line (asciiText "W0ab0")) := by decide
theorem test_illegal_X4 : answer 0x24 .none = failed 0x06 := by decide
theorem test_illegal_X5 : answer 0xFF (.baud 1) = failed 0x06 := by decide

/-- DV10: both digit cases, and the identifier above 0x7FF makes the frame extended. -/
theorem test_lineStdData_DV10 :
    answer 0x03 (.line (asciiText "tABC1ff")) = okay (.frame ⟨0xABC, true, false, 1, [0xFF]⟩) := by decide
/-- DV16: the second payload byte is cut short. -/
theorem test_lineStdData_DV16 :
    answer 0x03 (.line (asciiText "t1232AB")) = okay (.frame ⟨0x123, false, false, 2, [0xAB, 0]⟩) := by decide
theorem test_lineStdRemote_DV23 :
    answer 0x03 (.line (asciiText "r1238deadbeef")) = okay (.frame ⟨0x123, false, true, 8, []⟩) := by decide
theorem test_lineExtData_DV2 :
    answer 0x03 (.line (asciiText "T12345678197")) = okay (.frame ⟨0x12345678, true, false, 1, [0x97]⟩) := by decide
theorem test_lineExtData_DV13 :
    answer 0x03 (.line (asciiText "T20000000")) = okay (.frame ⟨0x1FFFFFFF, true, false, 0, []⟩) := by decide
theorem test_lineExtRemote_DV24 :
    answer 0x03 (.line (asciiText "R1234567FF")) = okay (.frame ⟨0x1234567F, true, true, 8, []⟩) := by decide
/-- DV30, DV31 and the other commands of R81 to R89. -/
theorem test_other_lines_are_no_frames :
    ∀ l ∈ (["S4", "scb9303", "W2000", "C", "O", "L", "l", "v", "V1", "N", "z", "Z"].map asciiText) ++ [[0x07#8]],
      answer 0x03 (.line l) = failed 0x04 := by decide

/-! ### The host, the wire and the target -/

/-- The state with the bytes of a line and its terminator on the wire. -/
def sent (line : Line) : State := { State.reset with wire := line ++ [0x0D] }

def writtenBy (line : Line) : Option (Memory × Timing × List Byte) :=
  match step (sent line) with
  | .next t => some (t.target, t.timing, t.wire)
  | _ => none

theorem test_target_performs_W24fe : writtenBy (asciiText "W24fe") = some ([(0x24, 0xFE)], ⟨0, 0, 0⟩, []) := by decide
/-- A register holds the byte last written to it, and equal register spaces are equal lists. -/
theorem test_memory_write_of_the_unlisted_value :
    Memory.write [(0x24, 0xFE), (0x25, 1)] 0x24 Memory.unlisted = [(0x25, 1)] ∧ Memory.write [] 0xFF Memory.unlisted = [] ∧
    Memory.wf [(0x24, Memory.unlisted)] = false ∧ Memory.wf [(0x25, 1), (0x24, 1)] = false ∧ Memory.wf [(0x100, 1)] = false := by
  decide
/-- R47: CNF1, then the high and the low byte of the pair. -/
theorem test_target_performs_scb9303 : writtenBy (asciiText "scb9303") = some ([], ⟨0xCB, 0x93, 0x03⟩, []) := by decide
theorem test_target_ignores_C : writtenBy (asciiText "C") = some ([], ⟨0, 0, 0⟩, []) := by decide
theorem test_target_refuses_a_malformed_line : writtenBy (asciiText "W2") = none := by decide

/-! ### Witnesses: for each statement with hypotheses, a state and operands that meet them -/

theorem fixed : Cfg.spec.sourceFixed := by unfold Cfg.sourceFixed; decide

theorem texts : Cfg.spec.textual := by unfold Cfg.textual; decide

/-- A state with the specified configuration and no response yet meets the invariant. -/
theorem meets_inv {s : State} (hc : s.cfg = Cfg.spec) (hr : s.rsp.valid = false) (hm : Memory.wf s.target = true) : s.Inv :=
  ⟨hc ▸ test_cfg_spec_wf, hc ▸ fixed, hc ▸ texts, fun h => Bool.noConfusion (hr.symm.trans h), hm⟩

theorem runs (i : Instr) (s : State) : ∃ t, exec i s = .next t := ⟨_, (exec_eq i s).trans (complete_eq _ _)⟩

/-- A state of the host's turn with moves to make. -/
def moving (moves : List HostMove) : State := { State.reset with host := moves }

theorem meets_safe {s : State} (hc : s.cfg = Cfg.spec) (hr : s.rsp.valid = false) (hm : Memory.wf s.target = true)
    (hq : s.req.valid = true → TypedRequest s.req.opcode s.req.operands) (hh : s.host = []) (hw : s.wire = []) : s.Safe :=
  ⟨meets_inv hc hr hm, hq, by simp [hh], [], hw, by simp⟩

/-- The block's, the target's and the host's step, each from a state that meets the invariant. -/
theorem witness_StepKeepsInvariant :
    ((placed 0x22 (.chains [])).Inv ∧ ∃ t, step (placed 0x22 (.chains [])) = .next t) ∧
    ((sent (asciiText "W24fe")).Inv ∧ ∃ t, step (sent (asciiText "W24fe")) = .next t) ∧
    ((moving [.reset]).Inv ∧ ∃ t, step (moving [.reset]) = .next t) :=
  ⟨⟨meets_inv rfl rfl rfl, _, rfl⟩, ⟨meets_inv rfl rfl rfl, _, rfl⟩, ⟨meets_inv rfl rfl rfl, _, rfl⟩⟩

/-- A frame line, a register write line, a timing line and a preset line of the block (E4 and S7 among them). -/
theorem witness_blockLines :
    FrameLine (asciiText "t7ff2ab01") ∧ BlockLine Cfg.spec (asciiText "W24fe") ∧ BlockLine Cfg.spec (asciiText "scb9303") ∧
    BlockLine Cfg.spec (asciiText "S4") :=
  ⟨⟨false, false, 0x7FF, 2, [0xAB, 0x01], by decide⟩, blockLine_regWrite Cfg.spec ⟨0x24, 0xFE⟩,
    blockLine_timing Cfg.spec 0xCB 0x93 0x03, blockLine_preset texts 4⟩

/-- The block's step, and the target's with a frame line on the wire. -/
theorem witness_StepKeepsSafe :
    ((placed 0x23 (.regWrite ⟨0, 0⟩)).Safe ∧ ∃ t, step (placed 0x23 (.regWrite ⟨0, 0⟩)) = .next t) ∧
    (sent (asciiText "t7ff2ab01")).Safe ∧ ∃ t, step (sent (asciiText "t7ff2ab01")) = .next t := by
  refine ⟨⟨meets_safe rfl rfl rfl (fun _ => trivial) rfl rfl, _, rfl⟩, ⟨meets_inv rfl rfl rfl, (fun h => Bool.noConfusion h), ?_,
    [asciiText "t7ff2ab01"], rfl, ?_⟩, _, rfl⟩
  · simp [sent, State.reset]
  · intro l hl
    rw [List.mem_singleton.mp hl]
    exact ⟨frameLine_printable witness_blockLines.1, .inl witness_blockLines.1⟩

/-- A safe state that steps, and a safe one that is idle. -/
theorem witness_SafeStateStopsOnlyWhenIdle :
    (placed 0xFF .none).Safe ∧ (∃ t, step (placed 0xFF .none) = .next t) ∧
    ({ State.reset with target := [(0xFF, 1)] } : State).Safe ∧
    step ({ State.reset with target := [(0xFF, 1)] } : State) = .fault .noRequest :=
  ⟨meets_safe rfl rfl rfl (fun _ => by show TypedRequest 0xFF .none; simp [TypedRequest]) rfl rfl, ⟨_, rfl⟩,
    meets_safe rfl rfl rfl (fun h => Bool.noConfusion h) rfl rfl, rfl⟩

theorem witness_DecodeOfEncodeIsIdentity :
    (Instr.illegal 0x0F (.chains [])).wf = true ∧ (Instr.frameDecode [0xFF]).wf = true ∧ (Instr.lineTiming []).wf = true := by
  decide

theorem witness_EncodeOfDecodeIsIdentity : decode ⟨0x03, .line [0x5A, 0x30]⟩ = .ok (.lineAckUpper [0x30]) := rfl

/-- The bounds of the ranges of R62, and lines of no kind: a blank, the byte before a kind's and bytes that are no ASCII. -/
theorem witness_OpcodeMapDecodes :
    (∀ b ∈ [0x00#8, 0x06#8, 0x08#8, 0x20#8, 0x50#8, 0x55#8, 0x5B#8, 0x71#8, 0x7B#8, 0xFF#8],
      b ∉ [0x74#8, 0x72#8, 0x54#8, 0x52#8, 0x53#8, 0x73#8, 0x57#8, 0x43#8, 0x4F#8, 0x4C#8, 0x6C#8, 0x76#8, 0x56#8, 0x4E#8, 0x7A#8,
        0x5A#8, 0x07#8]) ∧
    ∀ op ∈ [0x00#8, 0x04#8, 0x07#8, 0x0F#8, 0x11#8, 0x1F#8, 0x24#8, 0xFF#8],
      op = 0x00#8 ∨ (0x04 ≤ op.toNat ∧ op.toNat ≤ 0x0F) ∨ (0x11 ≤ op.toNat ∧ op.toNat ≤ 0x1F) ∨ 0x24 ≤ op.toNat := by decide

/-- Every token has a text, a line where it holds no double quote, so every list of tokens has a spaced one. -/
theorem exists_spaced (toks : List Token) (hq : ∀ l, .str l ∈ toks → 0x22#8 ∉ l) :
    ∃ t, Spaced toks t ∧ (toks ≠ [] → t.head? = some 0x20#8) := by
  induction toks with
  | nil => exact ⟨[], by simp [Spaced], by simp⟩
  | cons tok toks ih =>
    obtain ⟨rest, h1, h2⟩ := ih fun l hl => hq l (by simp [hl])
    have hx : ∃ x, TokenText tok x := by
      cases tok with
      | word w => exact ⟨w, rfl⟩
      | num v =>
        exact ⟨_, v + 1, by omega, .inr (.inr ⟨v.lt_succ_self.trans (Nat.lt_pow_self (by decide)), rfl⟩)⟩
      | str l => exact ⟨_, hq l (by simp), rfl⟩
      | mark b => exact ⟨[b], rfl⟩
    obtain ⟨x, hx⟩ := hx
    refine ⟨0x20#8 :: (x ++ rest), ⟨[0x20#8], x, rest, by simp [IsBlank], hx, h1, rfl, ?_⟩, fun _ => rfl⟩
    rintro - ⟨next, hn, -⟩
    exact ⟨_, h2 (by rintro rfl; cases hn), by simp [IsBlank]⟩

theorem exists_pattern (p : IdPattern) : ∃ ts, PatternTokens p ts ∧ ∀ l, .str l ∉ ts := by
  refine ⟨_, ⟨_, _, .inl rfl, .inl rfl, rfl⟩, ?_⟩
  simp [nameToken, fieldTokens, commaToken]

/-- REG_WRITE_FORMAT's text with its numbers in three notations, and every request of each mnemonic: it has a text. -/
theorem witness_AssemblerReadsTheTextOfEachRequest :
    Writes (asciiText "REG_WRITE_FORMAT 0x2F,0b11111110") ⟨0x23, .regWrite ⟨0x2F, 0xFE⟩⟩ ∧
    (∀ r : RawFrame, ∃ text, Writes text ⟨0x01, .rawFrame r⟩) ∧ (∀ r : RawFrame, ∃ text, Writes text ⟨0x02, .rawFrame r⟩) ∧
    (∀ l : Line, 0x22#8 ∉ l → ∃ text, Writes text ⟨0x03, .line l⟩) ∧ (∀ b, ∃ text, Writes text ⟨0x10, .baud b⟩) ∧
    (∀ p, ∃ text, Writes text ⟨0x20, .pattern p⟩) ∧ (∀ p, ∃ text, Writes text ⟨0x21, .pattern p⟩) ∧
    (∃ text, Writes text ⟨0x22, .chains [⟨⟨.std, 0x7FF, 0, 0⟩, [⟨.ext, 1, 2, 3⟩]⟩]⟩) ∧
    ∀ w, ∃ text, Writes text ⟨0x23, .regWrite w⟩ := by
  have has {q : Request} {toks : List Token} (h : RequestTokens q toks) (hq : ∀ l, .str l ∈ toks → 0x22#8 ∉ l) :
      ∃ text, Writes text q := by
    obtain ⟨t, ht, -⟩ := exists_spaced toks hq
    exact ⟨t, toks, h, ht⟩
  have raw (r : RawFrame) (name : Token) (hn : ∀ l, name ≠ .str l) : ∀ l, .str l ∈ name :: rawFrameTokens r → 0x22#8 ∉ l := by
    intro l h
    simp only [rawFrameTokens, nameToken, fieldTokens, commaToken, listTokens, List.mem_cons, List.mem_append, List.mem_flatten,
      reduceCtorEq, false_or, or_false, List.not_mem_nil] at h
    rcases h with h | ⟨ts, hts, h⟩
    · exact absurd h.symm (hn l)
    · rcases mem_intersperse hts with hts | rfl
      · obtain ⟨b, -, rfl⟩ := List.mem_map.mp hts
        simp at h
      · simp at h
  refine ⟨?_, fun r => has (.frameMake r) ?_, fun r => has (.frameEncode r) ?_, fun l hl => has (.frameDecode l) ?_,
    fun b => has (.baudCompute b) ?_, fun p => ?_, fun p => ?_, ?_, fun w => has (.regWriteFormat w) ?_⟩
  · refine ⟨_, .regWriteFormat ⟨0x2F, 0xFE⟩, [], asciiText "REG_WRITE_FORMAT", asciiText " 0x2F,0b11111110", by simp, rfl,
      ⟨asciiText " ", asciiText "0x2F", asciiText ",0b11111110", by unfold IsBlank; decide,
        ⟨2, by decide, .inl ⟨by decide, .inr (by decide)⟩⟩,
        ⟨[], asciiText ",", asciiText "0b11111110", by simp, rfl,
          ⟨[], asciiText "0b11111110", [], by simp, ⟨8, by decide, .inr (.inl ⟨by decide, by decide⟩)⟩, by simp [Spaced], rfl,
            by simp⟩, rfl, by simp [Token.isName, commaToken]⟩, rfl, by simp [Token.isName, commaToken]⟩, rfl,
      fun _ _ => ⟨_, rfl, by unfold IsBlank; decide⟩⟩
  · exact raw r _ (fun l h => by simp [nameToken] at h)
  · exact raw r _ (fun l h => by simp [nameToken] at h)
  · intro l' h; simp [nameToken] at h; exact h ▸ hl
  · simp [nameToken]
  · obtain ⟨ts, h, hs⟩ := exists_pattern p
    exact has (.maskEncode p ts h) (by simp [hs, nameToken])
  · obtain ⟨ts, h, hs⟩ := exists_pattern p
    exact has (.filterValueEncode p ts h) (by simp [hs, nameToken])
  · obtain ⟨m, hm, hsm⟩ := exists_pattern ⟨.std, 0x7FF, 0, 0⟩
    obtain ⟨f, hf, hsf⟩ := exists_pattern ⟨.ext, 1, 2, 3⟩
    exact has (.filterProgram _ _ (.cons ⟨m, [f], hm, .cons hf .nil, rfl⟩ .nil))
      (by simp [hsm, hsf, nameToken, commaToken, listTokens])
  · simp [nameToken, commaToken]

theorem witness_AssembledRequestsDecode : ∃ q, assemble (asciiText "FRAME_DECODE \"\"") = some q :=
  ⟨⟨0x03, .line []⟩, by decide⟩

/-- The ends of each range of R62. -/
theorem witness_UnassignedOpcodesAnswerIllegalOp :
    ∀ op ∈ [0x00#8, 0x04#8, 0x0F#8, 0x11#8, 0x1F#8, 0x24#8, 0xFF#8],
      op = 0x00#8 ∨ (0x04 ≤ op.toNat ∧ op.toNat ≤ 0x0F) ∨ (0x11 ≤ op.toNat ∧ op.toNat ≤ 0x1F) ∨ 0x24 ≤ op.toNat := by decide

/-- Each clause: a decoded request, a mistyped one, an ill-formed configuration. -/
theorem witness_StepRunsTheDecodedInstruction :
    ((placed 0x10 (.baud 1)).blockTurn ∧ (placed 0x10 (.baud 1)).cfg.wf = true ∧ decode ⟨0x10, .baud 1⟩ = .ok (.baudCompute 1)) ∧
    ((placed 0x10 .none).blockTurn ∧ (placed 0x10 .none).cfg.wf = true ∧
      decode ⟨0x10, .none⟩ = .error (.operandRecordMismatch 0x10)) ∧
    (({ placed 0x10 (.baud 1) with cfg := { Cfg.spec with oscHz := 0 } } : State).blockTurn ∧
      ({ Cfg.spec with oscHz := 0 } : Cfg).wf = false) := by
  refine ⟨⟨⟨rfl, ?_⟩, rfl, rfl⟩, ⟨⟨rfl, ?_⟩, rfl, rfl⟩, ⟨rfl, ?_⟩, rfl⟩ <;> decide

theorem witness_FrameDecodeRequestPerformsFrameDecode :
    (placed 0x03 (.line [0x74])).blockTurn ∧ (placed 0x03 (.line [0x74])).cfg.wf = true := ⟨⟨rfl, by decide⟩, rfl⟩

theorem witness_FetchWordIsPerformedNext :
    (moving [.reset, .await]).cfg.wf = true ∧ ∀ w ∈ [0x00, 0x01, 0x74, 0xFF], (decodeTableWord 8 w).isSome = true := by decide

theorem witness_EveryInstructionLeavesTheRest : ∃ t, exec (.filterProgram [chainOf 4]) (sent []) = .next t := ⟨_, rfl⟩

theorem witness_ResponseDependsOnlyOnCfgAndOperands :
    (sent []).cfg = State.reset.cfg ∧ (∃ t, exec (.baudCompute 5) (sent []) = .next t) ∧
      ∃ t, exec (.baudCompute 5) State.reset = .next t := ⟨rfl, ⟨_, rfl⟩, ⟨_, rfl⟩⟩

theorem witness_ErrorsOfEachOperation (r : RawFrame) (l : Line) (b : BitVec 32) (p : IdPattern) (cs : List FilterChain)
    (w : RegWrite) (op : Byte) (o : Operands) :
    (∃ t, exec (.frameMake r) State.reset = .next t) ∧ (∃ t, exec (.frameEncode r) State.reset = .next t) ∧
    (∃ t, exec (.frameDecode l) State.reset = .next t) ∧ (∃ t, exec (.baudCompute b) State.reset = .next t) ∧
    (∃ t, exec (.maskEncode p) State.reset = .next t) ∧ (∃ t, exec (.filterValueEncode p) State.reset = .next t) ∧
    (∃ t, exec (.filterProgram cs) State.reset = .next t) ∧ (∃ t, exec (.regWriteFormat w) State.reset = .next t) ∧
    ∃ t, exec (.illegal op o) State.reset = .next t :=
  ⟨runs _ _, runs _ _, runs _ _, runs _ _, runs _ _, runs _ _, runs _ _, runs _ _, runs _ _⟩

/-- Accepted at the bounds (E9, E7), and one raw frame for each reason of R101 (E11, E14, E12, E13). -/
theorem witness_FrameMakeNormalisesOrRejects :
    Acceptable Cfg.spec ⟨0x7FF, false, false, 8, [0, 1, 2, 3, 4, 5, 6, 7]⟩ ∧ Acceptable Cfg.spec ⟨0x003, true, true, 8, []⟩ ∧
    ¬ Acceptable Cfg.spec ⟨0, false, false, 9, List.replicate 9 0⟩ ∧ ¬ Acceptable Cfg.spec ⟨0, false, true, 9, []⟩ ∧
    ¬ Acceptable Cfg.spec ⟨0, false, true, 2, [1, 2]⟩ ∧ ¬ Acceptable Cfg.spec ⟨0, false, false, 2, [1]⟩ := by
  unfold Acceptable; decide

theorem witness_FrameEncodeWritesTheLine :
    Cfg.spec.sourceFixed ∧ Acceptable Cfg.spec ⟨0xFFFFFFFF, false, false, 0, []⟩ ∧
    ¬ Acceptable Cfg.spec ⟨0, false, true, 2, [1, 2]⟩ := ⟨fixed, by unfold Acceptable; decide, by unfold Acceptable; decide⟩

theorem witness_EncodedLineIsPlainHex :
    Cfg.spec.sourceFixed ∧ Cfg.spec.textual ∧ ∃ t l, exec (.frameEncode rawE4) State.reset = .next t ∧
      t.rsp.result = some (.line l) := ⟨fixed, texts, _, _, rfl, rfl⟩

theorem witness_FrameDecodeReadsTheFields :
    Cfg.spec.sourceFixed ∧ ∀ l ∈ [[], [0x20#8], [0x07#8, 0x74#8]],
      l.head? ≠ some 0x74#8 ∧ l.head? ≠ some 0x72#8 ∧ l.head? ≠ some 0x54#8 ∧ l.head? ≠ some 0x52#8 := ⟨fixed, by decide⟩

theorem witness_FrameLineKindsAnswerTheirFrame : State.reset.cfg.sourceFixed := fixed

/-- Frames at the ends of the ranges: the largest standard and extended identifiers, the full payload, a remote frame. -/
theorem witness_EncodeThenDecodeReturnsTheFrame :
    Cfg.spec.sourceFixed ∧ Frame.legal Cfg.spec ⟨0x7FF, false, false, 8, List.replicate 8 0xFF⟩ ∧
    Frame.legal Cfg.spec ⟨0x800, true, false, 0, []⟩ ∧ Frame.legal Cfg.spec ⟨0x1FFFFFFF, true, true, 8, []⟩ :=
  ⟨fixed, by unfold Frame.legal; decide, by unfold Frame.legal; decide, by unfold Frame.legal; decide⟩

theorem witness_FrameDecodeNeverInvalidFrame (b : Byte) (l : Line) : ∃ t, exec (.frameDecode (b :: l)) State.reset = .next t :=
  runs _ _

theorem witness_AnsweredFramesMeetTheInvariants :
    ∃ t f, exec (.lineStdData (asciiText "FFF0")) State.reset = .next t ∧ t.rsp.result = some (.frame f) := ⟨_, _, rfl, rfl⟩

/-- The length digits 9 and F, behind three identifier digits and behind eight. -/
theorem witness_LengthDigitIsCapped :
    Cfg.spec.sourceFixed ∧ digitValue 0x39 = some 9 ∧ digitValue 0x46 = some 15 ∧
    (asciiText "123").length = 3 ∧ (asciiText "12345678").length = 8 ∧
    (∃ t, exec (.frameDecode (0x74 :: (asciiText "123" ++ 0x39 :: []))) State.reset = .next t) ∧
    ∃ t, exec (.frameDecode (0x52 :: (asciiText "12345678" ++ 0x46 :: []))) State.reset = .next t :=
  ⟨fixed, by decide, by decide, by decide, by decide, ⟨_, rfl⟩, ⟨_, rfl⟩⟩

/-- DV18 and DV23, cut where their last field ends. -/
theorem witness_BytesAfterTheLastFieldAreIgnored :
    Cfg.spec.sourceFixed ∧
    Answers (exec (.frameDecode (asciiText "t12320102")) State.reset) State.reset 0x00#8
      (some (.frame ⟨0x123, false, false, 2, [1, 2]⟩)) ∧
    2 + 3 + 2 * 2 ≤ (asciiText "t12320102").length ∧
    Answers (exec (.frameDecode (asciiText "R000000018")) State.reset) State.reset 0x00#8
      (some (.frame ⟨1, true, true, 8, []⟩)) ∧
    2 + 8 + 0 ≤ (asciiText "R000000018").length := ⟨fixed, rfl, by decide, rfl, by decide⟩

theorem witness_MalformedIdentifierReadsAsZero :
    Cfg.spec.sourceFixed ∧ (∃ d ∈ asciiText "1z3", digitValue d = none) ∧ (asciiText "1z3").length = 3 ∧
    (∃ d ∈ asciiText "1234567-", digitValue d = none) ∧ (asciiText "1234567-").length = 8 := ⟨fixed, by decide⟩

theorem witness_OnlyZeroBaudIsRefused : (1 : BitVec 32) ≠ 0 ∧ (0xFFFFFFFF : BitVec 32) ≠ 0 := by decide

theorem witness_PresetRateAnswersItsLine : Cfg.spec.wf = true ∧ ∀ i : Fin 9, Cfg.spec.presetRates[i] ≠ 0#32 := by decide

theorem witness_CustomRateAnswersTheFirstNearest :
    Cfg.spec.wf = true ∧ 1 ≤ Cfg.spec.xMin.toNat ∧ 1#32 ≠ 0#32 ∧ (∀ i : Fin 9, Cfg.spec.presetRates[i] ≠ 1#32) ∧
    0xFFFFFFFF#32 ≠ 0#32 ∧ ∀ i : Fin 9, Cfg.spec.presetRates[i] ≠ 0xFFFFFFFF#32 := by decide

theorem witness_CustomResultFieldsAndLine :
    Cfg.spec.wf = true ∧ 1 ≤ Cfg.spec.xMin.toNat ∧ Cfg.spec.sourceFixed ∧
    ∃ t k, exec (.baudCompute 1) State.reset = .next t ∧ t.rsp.result = some (.baud (.custom k)) :=
  ⟨by decide, by decide, fixed, _, _, rfl, rfl⟩

theorem test_baudCompute_40000 :
    (baudCompute Cfg.spec 40000).toOption =
      some (.baud (.custom ⟨600, 12, 50, 24, 0xD8, 0x9303, 0, asciiText "sd89303"⟩)) := by decide

theorem witness_NoDistanceMeansTheExactRate :
    (40000#32).toNat ∣ Cfg.spec.oscHz.toNat ∧
    ∃ t k, exec (.baudCompute 40000) State.reset = .next t ∧ t.rsp.result = some (.baud (.custom k)) ∧ k.diff = 0 :=
  by
    refine ⟨by decide, ?_⟩
    have h := test_baudCompute_40000
    show ∃ t k, State.complete State.reset (baudCompute Cfg.spec 40000) = _ ∧ _
    cases ho : baudCompute Cfg.spec 40000 with
    | error e => rw [ho] at h; cases h
    | ok r => rw [ho] at h; cases h; exact ⟨_, _, rfl, rfl, rfl⟩

theorem witness_PresetAnswerIgnoresTheOscillator :
    Cfg.spec.presetRates[(8 : Fin 9)] ≠ 0#32 ∧
    (∃ t, exec (.baudCompute Cfg.spec.presetRates[(8 : Fin 9)]) State.reset = .next t) ∧
    ∃ t, exec (.baudCompute Cfg.spec.presetRates[(8 : Fin 9)]) { State.reset with cfg := { Cfg.spec with oscHz := 1 } } = .next t :=
  ⟨by decide, runs _ _, runs _ _⟩

theorem witness_RateAboveOscillatorSaturates :
    Cfg.spec.wf = true ∧ Cfg.spec.sourceFixed ∧ Cfg.spec.oscHz.toNat < (24000001#32).toNat ∧
    (∀ i : Fin 9, Cfg.spec.presetRates[i] ≠ 24000001#32) ∧ Cfg.spec.oscHz.toNat < (0xFFFFFFFF#32).toNat ∧
    ∀ i : Fin 9, Cfg.spec.presetRates[i] ≠ 0xFFFFFFFF#32 := ⟨by decide, fixed, by decide⟩

theorem witness_FilterValueTupleBits : State.reset.cfg.sourceFixed := fixed

/-- FP11, FP3, FP8, FP9, FP2 and FP6: the numbers of filters at each bound. -/
theorem witness_FilterProgramBounds :
    Cfg.spec.sourceFixed ∧ 2 < [chainOf 1, chainOf 1, chainOf 1].length ∧ 4 < (chainOf 5).filters.length ∧
    2 < min (chainOf 3).filters.length (chainOf 3).filters.length ∧ 4 < max (chainOf 5).filters.length (chainOf 0).filters.length ∧
    (chainOf 4).filters.length ≤ 4 ∧ min (chainOf 4).filters.length (chainOf 2).filters.length ≤ 2 ∧
    max (chainOf 4).filters.length (chainOf 2).filters.length ≤ 4 := ⟨fixed, by decide⟩

theorem witness_NoChainZeroesBothMasks : State.reset.cfg.sourceFixed := fixed

/-- FP2, FP5 and FP6: one chain, two in order, two that swap. -/
theorem witness_FilterProgramLayout :
    Cfg.spec.sourceFixed ∧ (chainOf 4).filters.length ≤ 4 ∧
    ((chainOf 2).filters.length ≤ (chainOf 4).filters.length ∧ (chainOf 2).filters.length ≤ 2 ∧
      (chainOf 4).filters.length ≤ 4) ∧ (chainOf 0).filters.length < (chainOf 1).filters.length := ⟨fixed, by decide⟩

theorem witness_ProgramLinesMatchWrites :
    ∃ t ws ls, exec (.filterProgram [chainOf 1]) State.reset = .next t ∧ t.rsp.result = some (.program ws ls) :=
  ⟨_, _, _, rfl, rfl⟩

/-- A program with chains, one with none, and an error. -/
theorem witness_ProgramWriteCounts :
    (∃ t ws ls, exec (.filterProgram [chainOf 2, chainOf 4]) State.reset = .next t ∧ t.rsp.result = some (.program ws ls)) ∧
    (∃ t ws ls, exec (.filterProgram []) State.reset = .next t ∧ t.rsp.result = some (.program ws ls)) ∧
    ∃ t, exec (.filterProgram [chainOf 5]) State.reset = .next t ∧ t.rsp.status ≠ 0x00#8 :=
  ⟨⟨_, _, _, rfl, rfl⟩, ⟨_, _, _, rfl, rfl⟩, ⟨_, rfl, by decide⟩⟩

theorem witness_ChainOrderDoesNotMatter :
    (chainOf 3).filters.length ≠ (chainOf 1).filters.length ∧
    (∃ t, exec (.filterProgram [chainOf 3, chainOf 1]) State.reset = .next t) ∧
    ∃ t, exec (.filterProgram [chainOf 1, chainOf 3]) State.reset = .next t := ⟨by decide, ⟨_, rfl⟩, ⟨_, rfl⟩⟩

theorem witness_BlockStepConsumesTheRequest :
    (placed 0x00 .none).blockTurn ∧ ∃ t, step (placed 0x00 .none) = .next t := ⟨⟨rfl, by decide⟩, _, rfl⟩

theorem witness_HostPlacesARequestOnlyWhenNoneStands :
    (moving [.request 0x10 (.baud 0)]).hostTurn ∧
    ({ placed 0x00 .none with host := [.request 0x10 (.baud 0)] } : State).blockTurn ∧
    ∃ t, step ({ placed 0x00 .none with host := [.request 0x10 (.baud 0)] } : State) = .next t :=
  ⟨⟨rfl, by decide⟩, ⟨rfl, by decide⟩, _, rfl⟩

theorem witness_NoRequestNoStep : State.reset.hostTurn ∧ State.reset.host = [] := ⟨⟨rfl, by decide⟩, rfl⟩

/-- A line's step and a host's, both with no request. -/
theorem witness_ResponsePersists :
    ((sent (asciiText "C")).req.valid = false ∧ ∃ t, step (sent (asciiText "C")) = .next t) ∧
    (moving [.send]).host.head? ≠ some .reset ∧ ∃ t, step (moving [.send]) = .next t :=
  ⟨⟨rfl, _, rfl⟩, by decide, _, rfl⟩

theorem witness_ConfigurationNeverChanges : ∃ t, step (moving [.reset]) = .next t := ⟨_, rfl⟩

theorem witness_ResetLosesTheRequestAndSparesTheTarget :
    ({ placed 0x10 (.baud 1) with host := [.reset, .await] } : State).host = .reset :: [.await] := rfl

/-- The lowest and the highest register. -/
theorem witness_TargetPerformsARegisterWrite :
    (sent (0x57#8 :: (twoDigits 0x00 ++ twoDigits 0xFF))).lineTurn (0x57#8 :: (twoDigits 0x00 ++ twoDigits 0xFF)) [] ∧
    Memory.wf (sent (0x57#8 :: (twoDigits 0x00 ++ twoDigits 0xFF))).target = true ∧
    (sent (0x57#8 :: (twoDigits 0xFF ++ twoDigits 0x00))).lineTurn (0x57#8 :: (twoDigits 0xFF ++ twoDigits 0x00)) [] :=
  ⟨⟨rfl, by decide, rfl, by decide⟩, rfl, ⟨rfl, by decide, rfl, by decide⟩⟩

theorem witness_TargetTakesATimingLine :
    (sent (0x73#8 :: (twoDigits 0xCB ++ twoDigits 0x93 ++ twoDigits 0x03))).lineTurn
      (0x73#8 :: (twoDigits 0xCB ++ twoDigits 0x93 ++ twoDigits 0x03)) [] := ⟨rfl, by decide, rfl, by decide⟩

theorem witness_TargetTakesAPresetLine :
    ∀ i ∈ [(0 : Fin 9), 8], (sent [0x53#8, Cfg.spec.presetChar[i]]).lineTurn [0x53#8, Cfg.spec.presetChar[i]] [] := by
  intro i hi
  refine ⟨rfl, by simp [sent, State.reset], rfl, ?_⟩
  revert i; decide

/-- An `s` line, which steps; a line of another kind and the empty line, which no clause but the last is about. -/
theorem witness_OtherLinesWriteNoRegister :
    ((sent (asciiText "sc00000")).lineTurn (asciiText "sc00000") [] ∧ (asciiText "sc00000").head? ≠ some 0x57#8 ∧
      ∃ t, step (sent (asciiText "sc00000")) = .next t) ∧
    ∀ l ∈ [asciiText "O", []], (sent l).lineTurn l [] ∧ l.head? ≠ some 0x57#8 ∧ l.head? ≠ some 0x73#8 ∧ l.head? ≠ some 0x53#8 := by
  refine ⟨⟨⟨rfl, by decide, rfl, by decide⟩, by decide, _, rfl⟩, fun l hl => ⟨⟨rfl, by simp [sent, State.reset], rfl, ?_⟩, ?_⟩⟩ <;>
    revert l <;> decide

/-- A response whose lines are to be sent, two of them to one register. -/
def toSend : State :=
  { moving [.send, .await] with
    rsp := ⟨true, 0x00, some (.program [⟨0x20, 1⟩, ⟨0x20, 2⟩] (["W2001", "W2002"].map asciiText))⟩ }

theorem witness_SentProgramReachesTheTarget :
    toSend.hostTurn ∧ toSend.wire = [] ∧ toSend.cfg.textual ∧ Memory.wf toSend.target = true ∧ toSend.host = .send :: [.await] ∧
    ([HostMove.await]).head? ≠ some .reset ∧ toSend.rsp.valid = true ∧
    toSend.rsp.result = some (.program [⟨0x20, 1⟩, ⟨0x20, 2⟩]
      ([⟨0x20, 1⟩, ⟨0x20, 2⟩].map fun w : RegWrite => 0x57#8 :: (twoDigits w.addr ++ twoDigits w.value))) :=
  ⟨⟨rfl, by decide⟩, rfl, texts, rfl, rfl, by decide, rfl, by decide⟩

theorem witness_RewritingAListChangesNothing : Memory.wf [(0x00, 1#8), (0xFF, 2#8)] = true := by decide

end Sys2Proof.Tests
end

/-! The invariant (`00_scope.md` R3): every result an operation answers with is legal, and each kind of step (the block's
answer, the target's performing of a line, a move of the host) keeps what `State.Inv` says. -/

namespace Sys2Proof.Machine

/-! ### Every result is legal -/

theorem frameMake_legal {c : Cfg} {f : RawFrame} {r : Result} (h : frameMake c f = .ok r) : r.legal c := by
  unfold frameMake at h
  split at h
  case isFalse => cases h
  case isTrue ha =>
    cases h
    obtain ⟨-, hdlc, hrtr, hdata⟩ := (accepted_iff c f).mp ha
    have hlt := c.dlcMax.isLt
    have hfit : (f.dlc.setWidth 4).toNat = f.dlc.toNat := by
      rw [BitVec.toNat_setWidth]; exact Nat.mod_eq_of_lt (by omega)
    refine ⟨?_, fun hstd => (normFrame_ext_iff ..).mpr (.inr hstd), hfit.trans_le hdlc, fun hr => ?_, hrtr⟩
    · rw [normFrame_id_toNat]; exact Nat.min_le_right ..
    · exact (hdata hr).symm.trans hfit.symm

theorem frameEncode_legal {c : Cfg} (hf : c.sourceFixed) {f : RawFrame} {r : Result} (h : frameEncode c f = .ok r) :
    r.legal c := by
  unfold frameEncode at h
  split at h
  case isFalse => cases h
  case isTrue ha => cases h; exact blockLine_frame hf ((accepted_iff c f).mp ha)

theorem frameDecode_legal {c : Cfg} {l : Line} {r : Result} (h : frameDecode c l = .ok r) : r.legal c := by
  rcases frameDecode_cases c l with ⟨e, rtr, -, -, ho⟩ | ⟨ho, -⟩
  · rw [ho] at h; cases h; exact decodeFrame_legal c l e rtr
  · rw [ho] at h; cases h

/-- The table of R91 has an entry for every bit time of the range (R3). -/
theorem cnfTable_cnfEntry {c : Cfg} (hw : c.wf = true) {x : Nat} (hx : x ≤ c.xMax.toNat) :
    c.cnfTable[x - c.xMin.toNat]? = some (cnfEntry c x) := by
  obtain ⟨-, -, hlen, -⟩ := Cfg.wf_clauses hw
  have hlt : x - c.xMin.toNat < c.cnfTable.length := by omega
  rw [cnfEntry, List.getElem?_eq_getElem hlt]

/-- The register field of a candidate, one less than half its even divisor, fits the six bits of BRP (R146). -/
theorem candidate_brp_lt {c : Cfg} (hw : c.wf = true) (xd x : Nat) : (candidate c xd x).brp < 64 := by
  obtain ⟨-, -, -, -, -, hmax, -⟩ := Cfg.wf_clauses hw
  obtain ⟨-, hle, -⟩ := candidateXbrp_range hw xd x
  simp only [candidate]
  omega

theorem customTiming_legal {c : Cfg} (hw : c.wf = true) (baud : BitVec 32) : (customTiming c baud).legal c := by
  obtain ⟨-, hx, -⟩ := Cfg.wf_clauses hw
  obtain ⟨x, hmin, hmax, hsearch, -⟩ := search_spec c (c.oscHz.toNat / baud.toNat) hx
  obtain ⟨hlo, hhi, heven⟩ := candidateXbrp_range hw (c.oscHz.toNat / baud.toNat) x
  have hbrp := candidate_brp_lt hw (c.oscHz.toNat / baud.toNat) x
  simp only [CustomTiming.legal, customTiming, hsearch]
  refine ⟨hmin, hmax, hlo, hhi, heven, ?_, candidate_diff .., ?_, cnfTable_cnfEntry hw hmax, timingLine_eq ..⟩
  · rw [BitVec.toNat_ofNat]; exact Nat.mod_eq_of_lt hbrp
  · congr 1
    apply BitVec.eq_of_toNat_eq
    simp only [BitVec.toNat_setWidth, BitVec.toNat_ofNat]
    omega

theorem baudCompute_legal {c : Cfg} (hw : c.wf = true) {baud : BitVec 32} {r : Result}
    (h : baudCompute c baud = .ok r) : r.legal c := by
  unfold baudCompute at h
  split at h
  case isTrue => cases h
  case isFalse =>
    split at h
    case h_1 => cases h; rfl
    case h_2 => cases h; exact customTiming_legal hw baud

theorem filterProgram_legal {c : Cfg} (hf : c.sourceFixed) {cs : List FilterChain} {r : Result}
    (h : filterProgram c cs = .ok r) : r.legal c := by
  rcases filterProgram_cases c cs with ⟨e, -, ho⟩ | ⟨p, -, ho⟩
  · rw [ho] at h; cases h
  · rw [ho] at h; cases h
    refine ⟨?_, List.map_congr_left fun w _ => regWriteLine_eq w⟩
    rw [programWrites_length hf]
    cases p
    · exact .inl rfl
    · exact .inr rfl

/-- Every result an instruction answers with is legal. -/
theorem outcomeOf_legal {c : Cfg} (hw : c.wf = true) (hf : c.sourceFixed) {i : Instr} {r : Result}
    (h : outcomeOf c i = .ok r) : r.legal c := by
  cases i with
  | frameMake f => exact frameMake_legal h
  | frameEncode f => exact frameEncode_legal hf h
  | baudCompute b => exact baudCompute_legal hw h
  | maskEncode p | filterValueEncode p => cases h; trivial
  | filterProgram cs => exact filterProgram_legal hf h
  | regWriteFormat w => cases h; exact regWriteLine_eq w ▸ blockLine_regWrite c w
  | illegal op o => cases h
  | frameDecode l | lineStdData l | lineStdRemote l | lineExtData l | lineExtRemote l | linePreset l | lineTiming l
  | lineRegWrite l | lineClose l | lineOpenActive l | lineOpenListen l | lineOpenLoopback l | lineFirmware l
  | lineHardware l | lineSerial l | lineAckLower l | lineAckUpper l | byteBell l => rw [outcomeOf] at h; exact frameDecode_legal h

/-! ### Legal responses -/

theorem rspLegal_ok {c : Cfg} {r : Result} (h : r.legal c) : Rsp.legal c ⟨true, statusOk, some r⟩ :=
  fun _ => ⟨by simp [statusOk], by simp [statusOk], by rintro x ⟨⟩; exact h⟩

theorem rspLegal_error (c : Cfg) (e : Err) : Rsp.legal c ⟨true, e.code, none⟩ :=
  fun _ => ⟨by cases e <;> decide, by cases e <;> decide, by simp⟩

theorem rspLegal_of_not_valid {c : Cfg} {r : Rsp} (h : r.valid = false) : r.legal c :=
  fun hv => Bool.noConfusion (h.symm.trans hv)

/-! ### Each kind of step keeps the invariant -/

/-- No step writes `CFG` (R32), so of the invariant only the response and the register space are left to look at. -/
theorem inv_of_cfg_eq {s t : State} (hs : s.Inv) (hcfg : t.cfg = s.cfg) (hrsp : t.rsp.legal s.cfg)
    (hmem : Memory.wf t.target = true) : t.Inv := by
  obtain ⟨hw, hf, ht, -, -⟩ := hs
  exact ⟨hcfg ▸ hw, hcfg ▸ hf, hcfg ▸ ht, hcfg ▸ hrsp, hmem⟩

theorem exec_keeps_inv {i : Instr} {s t : State} (hs : s.Inv) (h : exec i s = .next t) : t.Inv := by
  have ⟨hw, hf, _, _, hmem⟩ := hs
  rcases exec_cases h with ⟨r, hr, rfl⟩ | ⟨e, -, rfl⟩
  · exact inv_of_cfg_eq hs rfl (rspLegal_ok (outcomeOf_legal hw hf hr)) hmem
  · exact inv_of_cfg_eq hs rfl (rspLegal_error s.cfg e) hmem

theorem performLine_keeps_inv {s t : State} {l : Line} (hs : s.Inv) (h : s.performLine l = .next t) : t.Inv := by
  have ⟨_, _, _, hrsp, hmem⟩ := hs
  rcases performLine_cases s l with ho | ⟨w, -, ho⟩ | ⟨-, tm, ho⟩ <;> rw [ho] at h <;> cases h
  · exact inv_of_cfg_eq hs rfl hrsp (Memory.wf_write hmem w.addr w.value)
  · exact inv_of_cfg_eq hs rfl hrsp hmem

theorem hostStep_keeps_inv {s t : State} (hs : s.Inv) (h : s.hostStep = .next t) : t.Inv := by
  have ⟨_, _, _, hrsp, hmem⟩ := hs
  rcases hostStep_cases s with ⟨-, ho⟩ | ⟨m, moves, -, ho⟩ <;> rw [ho] at h <;> cases h
  cases m with
  | request op o | await | send => exact inv_of_cfg_eq hs rfl hrsp hmem
  | reset => exact inv_of_cfg_eq hs rfl (rspLegal_of_not_valid rfl) hmem

/-- Settles O3: a step is the block's answer, the target's performing of a line or a move of the host, and each of them
keeps the invariant. -/
theorem stepKeepsInvariant : Obligations.StepKeepsInvariant := by
  intro s t hs h
  rcases step_cases h with ⟨-, -, i, -, hexec⟩ | ⟨l, rest, -, hline⟩ | ⟨m, moves, -, -, hhost⟩
  · exact exec_keeps_inv hs hexec
  · have hs' : State.Inv { s with wire := rest } := hs
    exact performLine_keeps_inv hs' hline
  · exact hostStep_keeps_inv hs hhost

/-! ### The reset state -/

/-- The values of R2 form a well-formed configuration (R3). -/
theorem cfgSpec_wf : Cfg.spec.wf = true := by decide

theorem cfgSpec_sourceFixed : Cfg.spec.sourceFixed := by unfold Cfg.sourceFixed; decide

theorem cfgSpec_textual : Cfg.spec.textual := by unfold Cfg.textual; decide

theorem reset_inv : State.reset.Inv :=
  ⟨cfgSpec_wf, cfgSpec_sourceFixed, cfgSpec_textual, rspLegal_of_not_valid rfl, rfl⟩

/-- Settles O2: after reset no request stands, no move of the host is left and the wire is empty, so beyond the invariant
there is nothing to be unsafe. -/
theorem resetIsSafe : Obligations.ResetIsSafe := by
  have hreq : State.reset.req.valid = false := rfl
  have hhost : State.reset.host = [] := rfl
  refine ⟨reset_inv, ?typed, ?moves, [], rfl, by simp⟩
  case typed => simp [hreq]
  case moves => simp [hhost]

end Sys2Proof.Machine

/-! The state and its steps (`10_state.md` R21 to R37): what a step of each agent changes and leaves unchanged, that a
typed request decodes, that a safe state stays safe, and where it stops. -/

namespace Sys2Proof.Machine

/-! ### The answer of an instruction -/

/-- What an instruction does to the state is to write a response (R24). -/
theorem exec_respond {i : Instr} {s t : State} (h : exec i s = .next t) : ∃ status result, t = s.respond status result := by
  rcases exec_cases h with ⟨r, -, rfl⟩ | ⟨e, -, rfl⟩
  · exact ⟨statusOk, some r, rfl⟩
  · exact ⟨e.code, none, rfl⟩

/-- A block step that goes on writes a response and does nothing else. -/
theorem step_respond {s t : State} (hb : s.blockTurn) (h : step s = .next t) : ∃ status result, t = s.respond status result := by
  rw [step_of_blockTurn hb] at h
  obtain ⟨-, i, -, hexec⟩ := blockStep_next h
  exact exec_respond hexec

/-- The statuses of R210 go up to 6, and an error's is not OK. -/
theorem errCode_bounds (e : Err) : e.code.toNat ≤ 6 ∧ e.code ≠ 0x00#8 := by cases e <;> decide

/-- A frame among an instruction's results is FRAME_MAKE's or FRAME_DECODE's, and legal under any configuration. -/
theorem outcomeOf_frame_legal {c : Cfg} {i : Instr} {f : Frame} (h : outcomeOf c i = .ok (.frame f)) : f.legal c := by
  cases i with
  | frameMake r => exact frameMake_legal (r := .frame f) h
  | frameEncode r => rw [outcomeOf, frameEncode] at h; split at h <;> cases h
  | baudCompute b =>
    rw [outcomeOf, baudCompute] at h
    split at h
    case isTrue => cases h
    case isFalse => split at h <;> cases h
  | filterProgram cs => rcases filterProgram_cases c cs with ⟨e, -, ho⟩ | ⟨p, -, ho⟩ <;> rw [outcomeOf, ho] at h <;> cases h
  | maskEncode p | filterValueEncode p | regWriteFormat w | illegal op o => cases h
  | frameDecode l | lineStdData l | lineStdRemote l | lineExtData l | lineExtRemote l | linePreset l | lineTiming l
  | lineRegWrite l | lineClose l | lineOpenActive l | lineOpenListen l | lineOpenLoopback l | lineFirmware l
  | lineHardware l | lineSerial l | lineAckLower l | lineAckUpper l | byteBell l =>
    rw [outcomeOf] at h
    exact frameDecode_legal (r := .frame f) h

/-! ### The block's step -/

theorem blockStep_of_decode {s : State} {i : Instr} (hw : s.cfg.wf = true) (h : decode s.fetch = .ok i) :
    blockStep s = exec i s := by
  simp only [blockStep, hw, h, if_true]

theorem blockStep_of_mismatch {s : State} {op : Byte} (hw : s.cfg.wf = true)
    (h : decode s.fetch = .error (.operandRecordMismatch op)) : blockStep s = .refused (.operandRecordMismatch op) := by
  simp only [blockStep, hw, h, if_true]

theorem blockStep_of_not_wf {s : State} (hw : s.cfg.wf = false) : blockStep s = .fault .configNotWellFormed := by
  simp only [blockStep, hw, Bool.false_eq_true, if_false]

/-- An opcode outside the map of R61 is illegal whatever its operands (R62). -/
theorem decode_of_not_assigned {op : Byte}
    (h : op.toNat ∉ [0x01, 0x02, 0x03, 0x10, 0x20, 0x21, 0x22, 0x23]) (o : Operands) :
    decode ⟨op, o⟩ = .ok (.illegal op o) := by
  have hne (k : Byte) (hk : k.toNat ∈ [0x01, 0x02, 0x03, 0x10, 0x20, 0x21, 0x22, 0x23]) : op ≠ k :=
    fun e => h (e ▸ hk)
  simp only [decode, hne 0x01#8 (by decide), hne 0x02#8 (by decide), hne 0x03#8 (by decide), hne 0x10#8 (by decide),
    hne 0x20#8 (by decide), hne 0x21#8 (by decide), hne 0x22#8 (by decide), hne 0x23#8 (by decide), if_false]

/-- The decoder reads every typed request (R22, R61). -/
theorem decode_of_typed {op : Byte} {o : Operands} (h : TypedRequest op o) : ∃ i, decode ⟨op, o⟩ = .ok i := by
  unfold TypedRequest at h
  split at h
  case h_9 => exact ⟨_, decode_of_not_assigned h _⟩
  all_goals
    rename_i hop
    have hlit := congrArg (BitVec.ofNat 8) hop
    rw [BitVec.ofNat_toNat, BitVec.setWidth_eq] at hlit
    subst hlit
    exact ⟨_, rfl⟩

/-! ### The frame of a line's performing and of a host's move -/

/-- Performing a line touches the target alone. -/
theorem performLine_frame {s t : State} {l : Line} (h : s.performLine l = .next t) :
    t.cfg = s.cfg ∧ t.req = s.req ∧ t.rsp = s.rsp ∧ t.host = s.host ∧ t.wire = s.wire := by
  rcases performLine_cases s l with ho | ⟨w, -, ho⟩ | ⟨-, tm, ho⟩ <;> rw [ho] at h <;> cases h
  · exact ⟨rfl, rfl, rfl, rfl, rfl⟩
  · exact ⟨rfl, rfl, rfl, rfl, rfl⟩

theorem hostStep_nil {s : State} (h : s.host = []) : s.hostStep = .fault .noRequest := by
  rw [State.hostStep, h]

theorem hostStep_request {s : State} {op : Byte} {o : Operands} {moves : List HostMove} (h : s.host = .request op o :: moves) :
    s.hostStep = .next { s with host := moves, req := { valid := true, opcode := op, operands := o } } := by
  rw [State.hostStep, h]

/-- A host with a move left makes it. -/
theorem hostStep_of_ne_nil {s : State} (h : s.host ≠ []) : ∃ t, s.hostStep = .next t := by
  rcases hostStep_cases s with ⟨hnil, -⟩ | ⟨m, moves, -, ho⟩
  · exact absurd hnil h
  · exact ⟨_, ho⟩

theorem hostStep_cfg {s t : State} (h : s.hostStep = .next t) : t.cfg = s.cfg := by
  rcases hostStep_cases s with ⟨-, ho⟩ | ⟨m, moves, -, ho⟩ <;> rw [ho] at h <;> cases h
  cases m <;> rfl

/-- Of the host's moves only a reset writes RSP (R37). -/
theorem hostStep_rsp {s t : State} (hr : s.host.head? ≠ some .reset) (h : s.hostStep = .next t) : t.rsp = s.rsp := by
  rcases hostStep_cases s with ⟨-, ho⟩ | ⟨m, moves, hm, ho⟩ <;> rw [ho] at h <;> cases h
  cases m with
  | request op o | await | send => rfl
  | reset => exact absurd (by rw [hm]; rfl) hr

/-! ### The wire of a safe state -/

/-- The wire holds whole lines of the block, each with its terminator: the clause of `State.Safe` about the wire. -/
def WholeLines (c : Cfg) (w : List Byte) : Prop :=
  ∃ ls : List Line, w = ls.flatMap (fun l => l ++ [c.lineTerm]) ∧ ∀ l ∈ ls, BlockLine c l

theorem safe_iff (s : State) : s.Safe ↔ s.Inv ∧ (s.req.valid = true → TypedRequest s.req.opcode s.req.operands) ∧
    (∀ op o, HostMove.request op o ∈ s.host → TypedRequest op o) ∧ WholeLines s.cfg s.wire := Iff.rfl

theorem WholeLines.append {c : Cfg} {w w' : List Byte} (h : WholeLines c w) (h' : WholeLines c w') :
    WholeLines c (w ++ w') := by
  obtain ⟨ls, rfl, hls⟩ := h
  obtain ⟨ls', rfl, hls'⟩ := h'
  refine ⟨ls ++ ls', List.flatMap_append.symm, fun l hl => ?_⟩
  exact (List.mem_append.mp hl).elim (hls l) (hls' l)

/-- Behind the first line the wire still holds whole lines. -/
theorem WholeLines.tail {c : Cfg} (ht : c.textual) {l : Line} {rest : List Byte} (hl : c.lineTerm ∉ l)
    (h : WholeLines c (l ++ c.lineTerm :: rest)) : WholeLines c rest := by
  obtain ⟨ls, hw, hls⟩ := h
  have htake := takeLine_append hl rest
  rw [hw, takeLine_lines ht hls] at htake
  cases ls with
  | nil => cases htake
  | cons l' ls => cases htake; exact ⟨ls, rfl, fun x hx => hls x (List.mem_cons_of_mem _ hx)⟩

theorem result_legal_of_rsp {c : Cfg} {r : Rsp} (h : r.legal c) {x : Result} (hv : r.valid = true)
    (hr : r.result = some x) : x.legal c := by
  obtain ⟨-, -, hlegal⟩ := h hv
  exact hlegal x hr

/-- The lines a legal response gives the host to send are lines of the block (R71). -/
theorem rspLines_blockLine {c : Cfg} (ht : c.textual) {r : Rsp} (h : r.legal c) : ∀ l ∈ r.lines, BlockLine c l := by
  unfold Rsp.lines
  split
  case h_1 l hv hr =>
    have hl : BlockLine c l := result_legal_of_rsp h hv hr
    exact List.forall_mem_singleton.mpr hl
  case h_2 i l hv hr =>
    obtain rfl : l = [0x53#8, c.presetChar[i]] := result_legal_of_rsp h hv hr
    exact List.forall_mem_singleton.mpr (blockLine_preset ht i)
  case h_3 k hv hr =>
    have hk : k.legal c := result_legal_of_rsp h hv hr
    obtain ⟨-, -, -, -, -, -, -, -, -, hline⟩ := hk
    exact List.forall_mem_singleton.mpr (hline ▸ blockLine_timing c ..)
  case h_4 ws ls hv hr =>
    obtain ⟨-, rfl⟩ := result_legal_of_rsp h hv hr
    exact List.forall_mem_map.mpr fun w _ => blockLine_regWrite c w
  case h_5 => simp

/-- What the host sends for a legal response is whole lines (R244). -/
theorem wholeLines_wireBytes {c : Cfg} (ht : c.textual) {r : Rsp} (h : r.legal c) :
    WholeLines c (wireBytes c.lineTerm r.lines) := ⟨r.lines, rfl, rspLines_blockLine ht h⟩

/-! ### Each kind of step keeps a state safe -/

theorem exec_keeps_safe {i : Instr} {s t : State} (hs : s.Safe) (h : exec i s = .next t) : t.Safe := by
  obtain ⟨hinv, -, hmoves, hwire⟩ := (safe_iff s).mp hs
  have hinv' := exec_keeps_inv hinv h
  obtain ⟨status, result, rfl⟩ := exec_respond h
  exact (safe_iff _).mpr ⟨hinv', by simp, hmoves, hwire⟩

theorem performLine_keeps_safe {s t : State} {l : Line} (hs : s.Safe) (h : s.performLine l = .next t) : t.Safe := by
  obtain ⟨hinv, htyped, hmoves, hwire⟩ := (safe_iff s).mp hs
  obtain ⟨hcfg, hreq, -, hhost, hw⟩ := performLine_frame h
  refine (safe_iff t).mpr ⟨performLine_keeps_inv hinv h, ?_, ?_, ?_⟩
  · rw [hreq]; exact htyped
  · rw [hhost]; exact hmoves
  · rw [hcfg, hw]; exact hwire

/-- Taking the first line off the wire, before the target performs it, keeps a state safe. -/
theorem safe_of_lineTurn {s : State} {l : Line} {rest : List Byte} (hs : s.Safe) (hl : s.lineTurn l rest) :
    State.Safe { s with wire := rest } := by
  obtain ⟨hinv, htyped, hmoves, hwire⟩ := (safe_iff s).mp hs
  have ⟨_, _, htext, _, _⟩ := hinv
  obtain ⟨-, -, hw, hterm⟩ := hl
  exact ⟨hinv, htyped, hmoves, WholeLines.tail htext hterm (hw ▸ hwire)⟩

theorem hostStep_keeps_safe {s t : State} (hs : s.Safe) (h : s.hostStep = .next t) : t.Safe := by
  obtain ⟨hinv, htyped, hmoves, hwire⟩ := (safe_iff s).mp hs
  have ⟨_, _, htext, hrsp, _⟩ := hinv
  have hinv' := hostStep_keeps_inv hinv h
  rcases hostStep_cases s with ⟨-, ho⟩ | ⟨m, moves, hhost, ho⟩ <;> rw [ho] at h <;> cases h
  rw [hhost] at hmoves
  have hlater (op o) (hm : HostMove.request op o ∈ moves) : TypedRequest op o := hmoves op o (List.mem_cons_of_mem _ hm)
  cases m with
  | request op o => exact ⟨hinv', fun _ => hmoves op o List.mem_cons_self, hlater, hwire⟩
  | await => exact ⟨hinv', htyped, hlater, hwire⟩
  | send => exact ⟨hinv', htyped, hlater, hwire.append (wholeLines_wireBytes htext hrsp)⟩
  | reset => exact ⟨hinv', fun hv => Bool.noConfusion hv, hlater, hwire⟩

/-- Settles O4: the block's answer, the target's performing of the wire's first line and the host's move each keep a safe
state safe. -/
theorem stepKeepsSafe : Obligations.StepKeepsSafe := by
  intro s t hs h
  rcases step_cases h with ⟨-, -, i, -, hexec⟩ | ⟨l, rest, hturn, hline⟩ | ⟨m, moves, -, -, hhost⟩
  · exact exec_keeps_safe hs hexec
  · exact performLine_keeps_safe (safe_of_lineTurn hs hturn) hline
  · exact hostStep_keeps_safe hs hhost

/-! ### Where a safe state stops -/

/-- In the block's turn a safe state steps: its configuration is well formed and its request typed. -/
theorem safe_blockTurn_steps {s : State} (hs : s.Safe) (hb : s.blockTurn) : ∃ t, step s = .next t := by
  obtain ⟨⟨hw, -⟩, htyped, -⟩ := (safe_iff s).mp hs
  obtain ⟨i, hi⟩ := decode_of_typed (htyped hb.1)
  exact ⟨_, by rw [step_of_blockTurn hb, blockStep_of_decode hw hi, exec_eq, complete_eq]⟩

/-- With no request and no reset due, a safe state steps by its wire's first line, or with an empty wire by the host's next
move, or has neither. -/
theorem safe_idle_cases {s : State} (hs : s.Safe) (hv : s.req.valid = false) (hr : s.host.head? ≠ some .reset) :
    (∃ t, step s = .next t) ∨ (step s = .fault .noRequest ∧ s.host = [] ∧ s.wire = []) := by
  obtain ⟨⟨-, -, htext, -⟩, -, -, ls, hwire, hls⟩ := hs
  rw [step_of_idle hv hr, State.outsideStep, hwire, takeLine_lines htext hls]
  cases ls with
  | nil =>
    by_cases hhost : s.host = []
    · exact .inr ⟨hostStep_nil hhost, hhost, rfl⟩
    · exact .inl (hostStep_of_ne_nil hhost)
  | cons l ls => exact .inl (performLine_blockLine (hls l List.mem_cons_self))

/-- Settles O5: a reset that is due happens, a request that stands is typed and performed, and else the outside moves or
has nothing left to do. -/
theorem safeStateStopsOnlyWhenIdle : Obligations.SafeStateStopsOnlyWhenIdle := by
  intro s hs
  by_cases hr : s.host.head? = some .reset
  · rw [step_of_resetDue hr]
    exact .inl (hostStep_of_ne_nil fun hnil => by simp [hnil] at hr)
  · cases hv : s.req.valid with
    | true => exact .inl (safe_blockTurn_steps hs ⟨hv, hr⟩)
    | false => exact (safe_idle_cases hs hv hr).imp_right fun ⟨hf, hhost, hwire⟩ => ⟨hf, rfl, hhost, hwire⟩

/-! ### The step of the block and its request -/

/-- Settles O12: one clause for each way the block's step ends. -/
theorem stepRunsTheDecodedInstruction : Obligations.StepRunsTheDecodedInstruction := by
  intro s hb
  rw [step_of_blockTurn hb]
  exact ⟨fun i hw hi => blockStep_of_decode hw hi, fun op hw he => blockStep_of_mismatch hw he, blockStep_of_not_wf⟩

/-- A placed table word stands as a request, with the resets before it dropped from the host's moves. -/
theorem withFetchWord_blockTurn (s : State) (nbits w : Nat) : (s.withFetchWord nbits w).blockTurn := by
  refine ⟨rfl, fun h => ?_⟩
  have hnot := List.head?_dropWhile_not (· == HostMove.reset) s.host
  rw [show (s.host.dropWhile (· == HostMove.reset)).head? = some .reset from h] at hnot
  simp at hnot

theorem decode_of_decodeTableWord {nbits w : Nat} {i : Instr} (h : decodeTableWord nbits w = some i) :
    decode (tableRequest w) = .ok i := by
  unfold decodeTableWord at h
  split at h
  case isTrue =>
    cases hd : decode (tableRequest w) with
    | ok j => rw [hd] at h; cases h; rfl
    | error e => rw [hd] at h; cases h
  case isFalse => cases h

/-- Settles O14: the placed word's request stands and no reset comes before it, so the step decodes and performs it. -/
theorem fetchWordIsPerformedNext : Obligations.FetchWordIsPerformedNext := by
  intro s w i hw hi
  rw [step_of_blockTurn (withFetchWord_blockTurn s 8 w)]
  exact blockStep_of_decode (s := s.withFetchWord 8 w) hw (decode_of_decodeTableWord hi)

/-- Settles O48: the step writes a response, whose frame is that of `State.respond`. -/
theorem blockStepConsumesTheRequest : Obligations.BlockStepConsumesTheRequest := by
  intro s t hb h
  obtain ⟨status, result, rfl⟩ := step_respond hb h
  exact ⟨rfl, rfl, rfl, rfl, rfl, rfl, fun _ => rfl⟩

/-- Settles O49: a request move is made in the host's turn, and a block step leaves the moves alone. -/
theorem hostPlacesARequestOnlyWhenNoneStands : Obligations.HostPlacesARequestOnlyWhenNoneStands := by
  refine ⟨fun s op o moves hturn hhost => ?_, fun s t hb h => ?_⟩
  · rw [step_of_hostTurn hturn, hostStep_request hhost]
  · obtain ⟨status, result, rfl⟩ := step_respond hb h
    exact respond_host s status result

/-- Settles O50: in its turn a host without moves has no step. -/
theorem noRequestNoStep : Obligations.NoRequestNoStep := by
  intro s hturn hhost
  rw [step_of_hostTurn hturn, hostStep_nil hhost]

/-! ### Every instruction -/

/-- Settles O15: the outcome is a result with the status OK, or an error with its code and no result. -/
theorem everyInstructionAnswers : Obligations.EveryInstructionAnswers := by
  intro i s
  cases ho : outcomeOf s.cfg i with
  | ok r => exact ⟨0x00#8, some r, by rw [answers_iff, exec_eq, ho, complete_ok]; rfl, by decide, by simp⟩
  | error e =>
    obtain ⟨hle, hne⟩ := errCode_bounds e
    exact ⟨e.code, none, by rw [answers_iff, exec_eq, ho, complete_error]; rfl, hle, by simp [hne]⟩

/-- Settles O16: an instruction does nothing but write a response. -/
theorem everyInstructionLeavesTheRest : Obligations.EveryInstructionLeavesTheRest := by
  intro i s t h
  obtain ⟨status, result, rfl⟩ := exec_respond h
  exact ⟨rfl, rfl, rfl, rfl, rfl, rfl, fun _ => rfl⟩

/-- Settles O17: the outcome is a function of `CFG` and the instruction, and the response is the outcome's. -/
theorem responseDependsOnlyOnCfgAndOperands : Obligations.ResponseDependsOnlyOnCfgAndOperands := by
  intro i s s' t t' hcfg h h'
  rw [exec_eq, complete_eq] at h h'
  rw [← hcfg] at h'
  cases h; cases h'
  rfl

/-- Settles O27: only FRAME_MAKE and FRAME_DECODE answer frames, and both normalise them. -/
theorem answeredFramesMeetTheInvariants : Obligations.AnsweredFramesMeetTheInvariants := by
  intro i s t f h hf
  rcases exec_cases h with ⟨r, hr, rfl⟩ | ⟨e, -, rfl⟩
  · rw [respond_rsp] at hf
    cases hf
    exact outcomeOf_frame_legal hr
  · cases hf

/-! ### What every step keeps -/

/-- Settles O51: with no request and no reset due, a step is the target's or a move of the host that is no reset. -/
theorem responsePersists : Obligations.ResponsePersists := by
  intro s t hv hr h
  rcases step_cases h with ⟨⟨hb, -⟩, -⟩ | ⟨l, rest, -, hline⟩ | ⟨m, moves, -, -, hhost⟩
  · exact Bool.noConfusion (hv.symm.trans hb)
  · obtain ⟨-, -, hrsp, -, -⟩ := performLine_frame hline
    exact hrsp
  · exact hostStep_rsp hr hhost

/-- Settles O52: neither the block, the target nor the host writes `CFG`. -/
theorem configurationNeverChanges : Obligations.ConfigurationNeverChanges := by
  intro s t h
  rcases step_cases h with ⟨-, -, i, -, hexec⟩ | ⟨l, rest, -, hline⟩ | ⟨m, moves, -, -, hhost⟩
  · obtain ⟨status, result, rfl⟩ := exec_respond hexec
    exact respond_cfg s status result
  · obtain ⟨hcfg, -⟩ := performLine_frame hline
    exact hcfg
  · exact hostStep_cfg hhost

/-- Settles O1: the reset state's fields, read off its definition. -/
theorem resetLoadsConfigurationAndClearsValids : Obligations.ResetLoadsConfigurationAndClearsValids := by
  unfold Obligations.ResetLoadsConfigurationAndClearsValids
  decide

end Sys2Proof.Machine

/-! The target's registers (`20_memory.md` R41 to R52): what a `W` line, an `s` line and any other line does to them, that
a list of writes may be repeated, and the run in which the target performs a program's lines one by one (R244). -/

namespace Sys2Proof.Machine

/-! ### One register write -/

theorem readTarget_writeTarget_same {s : State} (h : Memory.wf s.target = true) (w : RegWrite) :
    (s.writeTarget w).readTarget w.addr = w.value :=
  Memory.read_write_same h w.addr.toNat w.value

theorem readTarget_writeTarget_other (s : State) {w : RegWrite} {a : Byte} (h : a ≠ w.addr) :
    (s.writeTarget w).readTarget a = s.readTarget a :=
  Memory.read_write_other s.target w.value (BitVec.toNat_ne.mp h)

/-- With a register-write line first on the wire, the step takes it off and does its write. -/
theorem step_of_regWrite_turn {s : State} {w : RegWrite} {rest : List Byte} (h : s.lineTurn (regWriteLine w) rest) :
    step s = .next (State.writeTarget { s with wire := rest } w) := by
  rw [step_of_lineTurn h, performLine_regWrite]

/-- Settles O54: the step is the line's one write, and a write is read back at its own address alone. -/
theorem targetPerformsARegisterWrite : Obligations.TargetPerformsARegisterWrite := by
  intro s w rest hturn hwf
  rw [← regWriteLine_eq] at hturn
  refine ⟨_, step_of_regWrite_turn hturn, ?same, fun a ha => ?other, rfl, rfl, rfl, rfl, rfl, rfl⟩
  case same => exact readTarget_writeTarget_same (s := { s with wire := rest }) hwf w
  case other => exact readTarget_writeTarget_other { s with wire := rest } ha

/-! ### Timing lines and every other line -/

/-- Settles O55: the target reads the line's three bytes back in their order. -/
theorem targetTakesATimingLine : Obligations.TargetTakesATimingLine := by
  intro s b1 b2 b3 rest hturn
  rw [step_of_lineTurn hturn, performLine_timing]

/-- A line that begins with no `W` leaves the register space alone (R52). -/
theorem performLine_target {s t : State} {l : Line} (hW : l.head? ≠ some 0x57#8) (h : s.performLine l = .next t) :
    t.target = s.target := by
  rcases performLine_cases s l with ho | ⟨w, hl, -⟩ | ⟨-, tm, ho⟩
  · rw [ho] at h; cases h
  · exact absurd (by rw [hl, regWriteLine_eq]; rfl) hW
  · rw [ho] at h; cases h; rfl

/-- Settles O56: of the lines only a `W` line writes the register space, and only an `s` or `S` line the timing registers. -/
theorem otherLinesWriteNoRegister : Obligations.OtherLinesWriteNoRegister := by
  intro s l rest hturn hW
  rw [step_of_lineTurn hturn]
  refine ⟨fun t h => ?_, performLine_other _ hW⟩
  obtain ⟨hcfg, hreq, hrsp, hhost, hwire⟩ := performLine_frame h
  have htarget : t.target = s.target := performLine_target (s := { s with wire := rest }) hW h
  exact ⟨hwire, hcfg, hreq, hrsp, hhost, fun a => by rw [State.readTarget, htarget, State.readTarget]⟩

/-! ### A list of register writes -/

/-- Settles O58: a register the list writes ends with the same value whatever it held, and any other keeps what it held, so
the two register spaces read alike and, being canonical, are equal. -/
theorem rewritingAListChangesNothing : Obligations.RewritingAListChangesNothing := by
  intro m ws hwf
  have hwf' := Memory.wf_foldl_write hwf ws
  rw [List.foldl_append]
  refine Memory.ext_read (Memory.wf_foldl_write hwf' ws) hwf' fun a => ?_
  rw [Memory.read_foldl_write ws hwf' a, Memory.read_foldl_write ws hwf a]
  by_cases ha : ∃ w ∈ ws, w.addr.toNat = a
  · exact foldl_write_of_mem ws a ha _ _
  · exact foldl_write_of_not_mem ws a (fun w hw e => ha ⟨w, hw, e⟩) _

/-- The state once the target has performed every line on the wire, the lines of the writes `ws` (`run_of_regWrite_lines`). -/
def State.afterWrites (s : State) (ws : List RegWrite) : State :=
  { s with wire := [], target := ws.foldl (fun m w => Memory.write m w.addr.toNat w.value) s.target }

theorem readTarget_afterWrites {s : State} (h : Memory.wf s.target = true) (ws : List RegWrite) (a : Byte) :
    (s.afterWrites ws).readTarget a =
      ws.foldl (fun o w => if a.toNat = w.addr.toNat then w.value else o) (s.readTarget a) :=
  Memory.read_foldl_write ws h a.toNat

/-- A register no write is to is as before. -/
theorem readTarget_afterWrites_other {s : State} (h : Memory.wf s.target = true) {ws : List RegWrite} {a : Byte}
    (ha : ∀ w ∈ ws, w.addr ≠ a) : (s.afterWrites ws).readTarget a = s.readTarget a := by
  rw [readTarget_afterWrites h]
  exact foldl_write_of_not_mem ws a.toNat (fun w hw => BitVec.toNat_ne.mp (ha w hw)) _

/-- A register holds the value of the last write to it. -/
theorem readTarget_afterWrites_last {s : State} (h : Memory.wf s.target = true) (pre : List RegWrite) (w : RegWrite)
    {post : List RegWrite} (hpost : ∀ w' ∈ post, w'.addr ≠ w.addr) :
    (s.afterWrites (pre ++ w :: post)).readTarget w.addr = w.value := by
  rw [readTarget_afterWrites h, List.foldl_append, List.foldl_cons, if_pos rfl]
  exact foldl_write_of_not_mem post w.addr.toNat (fun w' hw => BitVec.toNat_ne.mp (hpost w' hw)) _

/-! ### The run that performs a program -/

theorem wireBytes_cons (term : Byte) (l : Line) (ls : List Line) :
    wireBytes term (l :: ls) = l ++ term :: wireBytes term ls := by
  simp [wireBytes]

theorem lineTerm_not_mem_regWriteLine {c : Cfg} (ht : c.textual) (w : RegWrite) : c.lineTerm ∉ regWriteLine w :=
  lineTerm_not_mem ht (regWriteLine_eq w ▸ blockLine_regWrite c w)

/-- With the lines of register writes on the wire and no request or reset in the way, the target performs them in order,
one a step (R52, R244). -/
theorem run_of_regWrite_lines {s : State} {ws : List RegWrite} (ht : s.cfg.textual) (hv : s.req.valid = false)
    (hr : s.host.head? ≠ some .reset) (hw : s.wire = wireBytes s.cfg.lineTerm (ws.map regWriteLine)) :
    core.run ws.length s = .next (s.afterWrites ws) := by
  induction ws generalizing s with
  | nil =>
    have hs : s.afterWrites [] = s := congrArg (fun wire => { s with wire := wire }) hw.symm
    rw [hs]; rfl
  | cons w ws ih =>
    rw [List.map_cons, wireBytes_cons] at hw
    have hturn : s.lineTurn (regWriteLine w) _ := ⟨hv, hr, hw, lineTerm_not_mem_regWriteLine ht w⟩
    rw [List.length_cons, run_succ (step_of_regWrite_turn hturn)]
    exact ih (s := State.writeTarget { s with wire := _ } w) ht hv hr rfl

theorem rspLines_program {r : Rsp} {ws : List RegWrite} {ls : List Line} (hv : r.valid = true)
    (hr : r.result = some (.program ws ls)) : r.lines = ls := by
  rw [Rsp.lines, hv, hr]

theorem hostStep_send {s : State} {moves : List HostMove} (h : s.host = .send :: moves) :
    s.hostStep = .next { s with host := moves, wire := s.wire ++ wireBytes s.cfg.lineTerm s.rsp.lines } := by
  rw [State.hostStep, h]

/-- Settles O57: the host's step puts the program's lines on the wire, and the steps after it perform them. -/
theorem sentProgramReachesTheTarget : Obligations.SentProgramReachesTheTarget := by
  intro s ws moves hturn hwire ht hwf hhost hmoves hvalid hresult
  simp only [← regWriteLine_eq] at hresult
  have hsend := hostStep_send hhost
  rw [hwire, List.nil_append, rspLines_program hvalid hresult, ← step_of_hostTurn hturn] at hsend
  refine ⟨State.afterWrites { s with host := moves } ws, ?run, rfl, rfl, rfl, rfl, rfl, rfl, fun a ha => ?other,
    fun pre w post hws hpost => ?last⟩
  case run =>
    rw [Nat.add_comm, run_succ hsend]
    exact run_of_regWrite_lines (s := { s with host := moves, wire := _ }) ht hturn.1 hmoves rfl
  case other => exact readTarget_afterWrites_other (s := { s with host := moves }) hwf ha
  case last => subst hws; exact readTarget_afterWrites_last (s := { s with host := moves }) hwf pre w hpost

end Sys2Proof.Machine

/-! Requests and their encodings (`30_encoding.md` R60 to R89): the decoder and the encoder are inverse to each other, the
assembler reads the texts of R64, an unassigned opcode answers IllegalOp, and no line kind but a frame line decodes. -/

namespace Sys2Proof.Machine

/-! ### Unassigned opcodes -/

/-- R62 leaves out the opcodes of R61's map and no other. -/
theorem unassignedOpcode_iff (op : Byte) :
    unassignedOpcode op = true ↔ op.toNat ∉ [0x01, 0x02, 0x03, 0x10, 0x20, 0x21, 0x22, 0x23] := by
  simp only [unassignedOpcode, Bool.or_eq_true, Bool.and_eq_true, beq_iff_eq, decide_eq_true_eq, List.mem_cons,
    List.not_mem_nil, or_false]
  omega

/-- The ranges as R62 lists them. -/
theorem unassignedOpcode_of_range {op : Byte}
    (h : op = 0x00#8 ∨ (0x04 ≤ op.toNat ∧ op.toNat ≤ 0x0F) ∨ (0x11 ≤ op.toNat ∧ op.toNat ≤ 0x1F) ∨ 0x24 ≤ op.toNat) :
    unassignedOpcode op = true := by
  rw [unassignedOpcode_iff]
  rcases h with rfl | h
  · decide
  · simp only [List.mem_cons, List.not_mem_nil, or_false]
    omega

theorem decode_of_unassigned {op : Byte} (h : unassignedOpcode op = true) (o : Operands) :
    decode ⟨op, o⟩ = .ok (.illegal op o) :=
  decode_of_not_assigned ((unassignedOpcode_iff op).mp h) o

/-- Settles O11: each range of R62 is unassigned, and the meaning of an illegal opcode is to raise IllegalOp. -/
theorem unassignedOpcodesAnswerIllegalOp : Obligations.UnassignedOpcodesAnswerIllegalOp := by
  intro op o s h
  refine ⟨decode_of_unassigned (unassignedOpcode_of_range h) o, ?_⟩
  rw [answers_iff, exec_eq, outcomeOf, complete_error]
  rfl

/-! ### Decoding an encoding -/

theorem unclassifiedLine_cons (b : Byte) (rest : Line) : unclassifiedLine (b :: rest) = true ↔ b ∉ lineFirstBytes := by
  simp [unclassifiedLine]

theorem decodeLine_of_unclassified {l : Line} (h : unclassifiedLine l = true) : decodeLine l = .frameDecode l := by
  cases l with
  | nil => rfl
  | cons b rest => exact decodeLine_of_not_mem rest ((unclassifiedLine_cons b rest).mp h)

/-- Settles O6: an operation's opcode and a line kind's first byte each select that instruction; for FRAME_DECODE itself
and an illegal opcode, well-formedness says that no kind and no operation claims them. -/
theorem decodeOfEncodeIsIdentity : Obligations.DecodeOfEncodeIsIdentity := by
  intro i h
  cases i with
  | frameDecode l => exact congrArg Except.ok (decodeLine_of_unclassified h)
  | illegal op o => exact decode_of_unassigned h o
  | frameMake _ | frameEncode _ | baudCompute _ | maskEncode _ | filterValueEncode _ | filterProgram _ | regWriteFormat _ => rfl
  | lineStdData _ | lineStdRemote _ | lineExtData _ | lineExtRemote _ | linePreset _ | lineTiming _ | lineRegWrite _
  | lineClose _ | lineOpenActive _ | lineOpenListen _ | lineOpenLoopback _ | lineFirmware _ | lineHardware _ | lineSerial _
  | lineAckLower _ | lineAckUpper _ | byteBell _ => rfl

/-! ### Encoding what was decoded -/

/-- A line's kind keeps the whole line, its first byte in the kind. -/
theorem encode_decodeLine (l : Line) : encode (decodeLine l) = ⟨0x03#8, .line l⟩ := by
  cases l with
  | nil => rfl
  | cons b rest =>
    refine decodeLine_elim (P := fun i => encode i = ⟨0x03#8, .line (b :: rest)⟩) b rest ?_ ?_ ?_ ?_ ?_ ?_ ?_ ?_ ?_ ?_ ?_ ?_ ?_ ?_
      ?_ ?_ ?_ (fun _ => rfl)
    all_goals (rintro rfl; rfl)

theorem decodeLine_wf (l : Line) : (decodeLine l).wf = true := by
  cases l with
  | nil => rfl
  | cons b rest =>
    refine decodeLine_elim (P := fun i => i.wf = true) b rest ?_ ?_ ?_ ?_ ?_ ?_ ?_ ?_ ?_ ?_ ?_ ?_ ?_ ?_ ?_ ?_ ?_
      (unclassifiedLine_cons b rest).mpr
    all_goals exact fun _ => rfl

/-- Settles O7: an assigned opcode with a record of its type gives that operation, or for FRAME_DECODE the line's kind, and
with any other record none; every other opcode stands in the illegal instruction with its operands. -/
theorem encodeOfDecodeIsIdentity : Obligations.EncodeOfDecodeIsIdentity := by
  rintro ⟨op, o⟩ i h
  by_cases hline : op = 0x03#8
  · subst op
    cases o with
    | line l => cases h; exact ⟨encode_decodeLine l, decodeLine_wf l⟩
    | none | rawFrame _ | baud _ | pattern _ | chains _ | regWrite _ => cases h
  · simp only [decode, hline, if_false] at h
    split_ifs at h
    case neg =>
      cases h
      refine ⟨rfl, (unassignedOpcode_iff op).mpr ?_⟩
      simp only [List.mem_cons, List.not_mem_nil, or_false]
      bv_omega
    all_goals
      subst op
      split at h
      · cases h; exact ⟨rfl, rfl⟩
      · cases h

/-! ### The opcode map and the line kinds -/

/-- Settles O8: each request of the map is the encoding of its operation, and the ranges of R62 are unassigned. -/
theorem opcodeMapDecodes : Obligations.OpcodeMapDecodes :=
  have decodes := decodeOfEncodeIsIdentity
  ⟨fun r => decodes (.frameMake r) rfl, fun r => decodes (.frameEncode r) rfl, decodes (.frameDecode []) rfl,
    fun b l hb => decodes (.frameDecode (b :: l)) ((unclassifiedLine_cons b l).mpr hb), fun b => decodes (.baudCompute b) rfl,
    fun p => decodes (.maskEncode p) rfl, fun p => decodes (.filterValueEncode p) rfl,
    fun cs => decodes (.filterProgram cs) rfl, fun w => decodes (.regWriteFormat w) rfl,
    fun _ o h => decode_of_unassigned (unassignedOpcode_of_range h) o⟩

/-- Settles O10: each of the requests is the encoding of its line kind. -/
theorem lineKindsDecodeByFirstByte : Obligations.LineKindsDecodeByFirstByte := fun l =>
  have decodes := decodeOfEncodeIsIdentity
  ⟨decodes (.lineStdData l) rfl, decodes (.lineStdRemote l) rfl, decodes (.lineExtData l) rfl, decodes (.lineExtRemote l) rfl,
    decodes (.linePreset l) rfl, decodes (.lineTiming l) rfl, decodes (.lineRegWrite l) rfl, decodes (.lineClose l) rfl,
    decodes (.lineOpenActive l) rfl, decodes (.lineOpenListen l) rfl, decodes (.lineOpenLoopback l) rfl,
    decodes (.lineFirmware l) rfl, decodes (.lineHardware l) rfl, decodes (.lineSerial l) rfl, decodes (.lineAckLower l) rfl,
    decodes (.lineAckUpper l) rfl, decodes (.byteBell l) rfl⟩

theorem frameDecode_of_no_letter (c : Cfg) {b : Byte} (h : letterFlags b = none) (rest : Line) :
    frameDecode c (b :: rest) = .error .notAFrame := by
  rw [frameDecode, h]

/-- Settles O24: each of the thirteen kinds is performed as FRAME_DECODE performs its line, and no frame letter is first in
it. -/
theorem otherLineKindsAnswerNotAFrame : Obligations.OtherLineKindsAnswerNotAFrame := by
  intro rest s i hi
  suffices ho : outcomeOf s.cfg i = .error .notAFrame by
    rw [answers_iff, exec_eq, ho, complete_error]
    rfl
  simp only [List.mem_cons, List.not_mem_nil, or_false] at hi
  rcases hi with rfl | rfl | rfl | rfl | rfl | rfl | rfl | rfl | rfl | rfl | rfl | rfl | rfl
  all_goals
    rw [outcomeOf]
    exact frameDecode_of_no_letter s.cfg (by decide) rest

/-! ### The assembler -/

/-- Settles O59: the text's tokens are the request's, and the readers read the request from them. -/
theorem assemblerReadsTheTextOfEachRequest : Obligations.AssemblerReadsTheTextOfEachRequest := by
  rintro q text ⟨toks, hreq, hspaced⟩
  have htokens : tokens text.length text = some toks := tokens_spaced (proper_request hreq) hspaced le_rfl
  obtain ⟨mnemonic, operands, rfl, hread⟩ := readRequest_tokens hreq
  simp only [assemble, htokens, hread]

/-- A request the assembler reads was read by `readRequest`. -/
theorem readRequest_of_assemble {text : Line} {q : Request} (h : assemble text = some q) :
    ∃ mnemonic ts, readRequest mnemonic ts = some (q, []) := by
  unfold assemble at h
  split at h
  case h_1 mnemonic ts _ =>
    split at h
    case h_1 q' hread => cases h; exact ⟨mnemonic, ts, hread⟩
    case h_2 => cases h
  case h_2 => cases h

/-- Each mnemonic gives an opcode of the map and an operand record of its type (R61, R64). -/
theorem readRequest_typed {mnemonic : Line} {ts rest : List Token} {q : Request}
    (h : readRequest mnemonic ts = some (q, rest)) :
    unassignedOpcode q.opcode = false ∧ TypedRequest q.opcode q.operands := by
  unfold readRequest at h
  split_ifs at h
  all_goals
    obtain ⟨p, -, hq⟩ := Option.map_eq_some_iff.mp h
    cases hq
    exact ⟨rfl, trivial⟩

/-- Settles O9: a request the assembler reads is typed, so it decodes, and it is the encoding of the instruction it gives,
whose opcode is one of the map. -/
theorem assembledRequestsDecode : Obligations.AssembledRequestsDecode := by
  intro text q h
  obtain ⟨mnemonic, ts, hread⟩ := readRequest_of_assemble h
  obtain ⟨hassigned, htyped⟩ := readRequest_typed hread
  obtain ⟨i, hi⟩ := decode_of_typed htyped
  obtain ⟨rfl, hwf⟩ := encodeOfDecodeIsIdentity q i hi
  refine ⟨i, hi, hwf, ?_⟩
  rintro op o rfl
  have hunassigned : unassignedOpcode op = true := hwf
  exact Bool.noConfusion (hassigned.symm.trans hunassigned)

/-! ### The preset line -/

/-- Settles O60: the target takes the line off the wire and performs it, which sets the timing registers. -/
theorem targetTakesAPresetLine : Obligations.TargetTakesAPresetLine := by
  intro s i rest hturn
  exact ⟨_, (step_of_lineTurn hturn).trans (performLine_preset { s with wire := rest } i)⟩

end Sys2Proof.Machine

/-! The frame codec (`40_frame_codec.md`): what FRAME_MAKE and FRAME_ENCODE answer for an accepted raw frame and for any
other, the bytes of an encoded line, which fields of a line fix the frame FRAME_DECODE answers, and the round trip of R116. -/

namespace Sys2Proof.Machine

/-! ### Outcomes as answers -/

theorem answers_of_ok {i : Instr} {s : State} {r : Result} (h : outcomeOf s.cfg i = .ok r) :
    Answers (exec i s) s 0x00#8 (some r) := by
  rw [answers_iff, exec_eq, h, complete_ok]; rfl

theorem answers_of_error {i : Instr} {s : State} {e : Err} (h : outcomeOf s.cfg i = .error e) :
    Answers (exec i s) s e.code none := by
  rw [answers_iff, exec_eq, h, complete_error]; rfl

theorem answers_unique {o : Outcome} {s : State} {st st' : Byte} {r r' : Option Result} (h : Answers o s st r)
    (h' : Answers o s st' r') : st = st' ∧ r = r' := by
  rw [answers_iff] at h h'
  rw [h] at h'
  injection h' with hs
  have hrsp := congrArg State.rsp hs
  simpa using hrsp

/-! ### FRAME_MAKE and FRAME_ENCODE -/

theorem frameMake_of_acceptable {c : Cfg} {r : RawFrame} (h : Acceptable c r) :
    frameMake c r = .ok (.frame ⟨(normFrame c r.id.toNat r.ext).1, (normFrame c r.id.toNat r.ext).2, r.rtr,
      r.dlc.setWidth 4, r.data⟩) :=
  if_pos ((accepted_iff c r).mpr h)

theorem frameMake_of_not_acceptable {c : Cfg} {r : RawFrame} (h : ¬ Acceptable c r) :
    frameMake c r = .error .invalidFrame :=
  if_neg (mt (accepted_iff c r).mp h)

theorem frameEncode_of_acceptable {c : Cfg} {r : RawFrame} (h : Acceptable c r) :
    frameEncode c r = .ok (.line (frameLine c r)) :=
  if_pos ((accepted_iff c r).mpr h)

theorem frameEncode_of_not_acceptable {c : Cfg} {r : RawFrame} (h : ¬ Acceptable c r) :
    frameEncode c r = .error .invalidFrame :=
  if_neg (mt (accepted_iff c r).mp h)

/-- A line FRAME_ENCODE answers with is that of an accepted raw frame. -/
theorem frameEncode_eq_ok {c : Cfg} {r : RawFrame} {l : Line} (h : frameEncode c r = .ok (.line l)) :
    Acceptable c r ∧ l = frameLine c r := by
  by_cases ha : Acceptable c r
  · rw [frameEncode_of_acceptable ha] at h; cases h; exact ⟨ha, rfl⟩
  · rw [frameEncode_of_not_acceptable ha] at h; cases h

/-- Settles O19: the meaning's two branches, with R101's check as `Acceptable`; an accepted length fits four bits. -/
theorem frameMakeNormalisesOrRejects : Obligations.FrameMakeNormalisesOrRejects := by
  intro r s
  refine ⟨fun ha => ?_, fun ha => answers_of_error (e := .invalidFrame) (frameMake_of_not_acceptable ha)⟩
  have hdlc : (r.dlc.setWidth 4).toNat = r.dlc.toNat := by
    obtain ⟨-, hle, -, -⟩ := ha
    have hmax := s.cfg.dlcMax.isLt
    rw [BitVec.toNat_setWidth]; exact Nat.mod_eq_of_lt (by omega)
  exact ⟨_, answers_of_ok (frameMake_of_acceptable ha), normFrame_id_toNat _ _ r.ext, normFrame_ext_iff .., rfl, hdlc, rfl⟩

/-! ### The bytes of an encoded line -/

/-- The letters of R104 by their codes. -/
theorem frameLetter_eq (ext rtr : Bool) :
    frameLetter ext rtr = if ext then (if rtr then 0x52#8 else 0x54#8) else (if rtr then 0x72#8 else 0x74#8) := by
  cases ext <;> cases rtr <;> rfl

theorem normFrame_ext_of_sourceFixed {c : Cfg} (h : c.sourceFixed) (id : Nat) (ext : Bool) :
    (normFrame c id ext).2 = (ext || decide (0x7FF < min id 0x1FFFFFFF)) := by
  obtain ⟨hstd, hext, -, -, -⟩ := frame_params h
  rw [normFrame, hstd, hext]; rfl

/-- Byte k of a field that begins at an offset. -/
theorem getElem?_field {pre fld post : Line} {off k : Nat} (hpre : pre.length = off) (hk : k < fld.length) :
    (pre ++ (fld ++ post))[off + k]? = fld[k]? := by
  subst hpre
  rw [List.getElem?_append_right (Nat.le_add_right ..), Nat.add_sub_cancel_left, List.getElem?_append_left hk]

theorem payload_length (data : List Byte) : (data.flatMap fun b => hexDigits b.toNat 2).length = 2 * data.length :=
  length_flatMap_two (f := fun b => hexDigits b.toNat 2) (fun b => hexDigits_length b.toNat 2) data

/-- The payload field of R105: two digits for each byte. -/
theorem getElem?_payload (data : List Byte) {i : Nat} {b : Byte} (h : data[i]? = some b) :
    (data.flatMap fun b => hexDigits b.toNat 2)[2 * i]? = lowerHex[b.toNat / 16]? ∧
      (data.flatMap fun b => hexDigits b.toNat 2)[2 * i + 1]? = lowerHex[b.toNat % 16]? := by
  obtain ⟨hhigh, hlow⟩ := getElem?_flatMap_two (f := fun b => hexDigits b.toNat 2) (fun b => hexDigits_length b.toNat 2) data i
  have hb : b.toNat / 16 < 16 := by have := b.isLt; omega
  rw [hhigh, hlow, h, Option.bind_some, Option.bind_some, hexDigits_getElem? (by decide), hexDigits_getElem? (by decide)]
  simp [Nat.mod_eq_of_lt hb]

/-- The length of R71: letter, identifier, length digit and payload. -/
theorem frameLine_length {c : Cfg} (h : c.sourceFixed) {r : RawFrame} (ha : Acceptable c r) :
    (frameLine c r).length =
      2 + idDigits c (normFrame c r.id.toNat r.ext).2 + if r.rtr then 0 else 2 * r.data.length := by
  rw [frameLine_eq h ha]
  cases r.rtr with
  | true => simp; omega
  | false =>
    simp only [List.length_cons, List.length_append, hexDigits_length, payload_length, Bool.false_eq_true, if_false]
    omega

/-- Settles O20: the line is the letter, the identifier's field, the length's and the payload's; each clause reads one of
them at its offset. -/
theorem frameEncodeWritesTheLine : Obligations.FrameEncodeWritesTheLine := by
  intro r s hf
  refine ⟨fun ha => ⟨_, answers_of_ok (frameEncode_of_acceptable ha), ?_⟩,
    fun ha => answers_of_error (e := .invalidFrame) (frameEncode_of_not_acceptable ha)⟩
  rintro id ext n rfl hext hn
  have hn : idDigits s.cfg ext = n := (idDigits_of_sourceFixed hf ext).trans hn.symm
  have hlen := frameLine_length hf ha
  have hline := frameLine_eq hf ha
  rw [normFrame_ext_of_sourceFixed hf, ← hext, hn] at hlen hline
  have hdlc : r.dlc.toNat < 16 := by
    obtain ⟨-, hle, -, -⟩ := ha
    have hmax := s.cfg.dlcMax.isLt
    omega
  refine ⟨hlen, ?letter, fun k hk => ?ident, ?dlc, fun hr i b hb => ?payload⟩
  case letter => rw [hline, ← frameLetter_eq]; rfl
  case ident =>
    rw [hline, ← hexDigits_getElem? hk]
    exact getElem?_field (pre := [_]) rfl (by simpa using hk)
  case dlc =>
    have hdigit := hexDigits_getElem? (v := r.dlc.toNat) (n := 1) (k := 0) Nat.one_pos
    rw [Nat.pow_zero, Nat.div_one, Nat.mod_eq_of_lt hdlc] at hdigit
    rw [hline, ← hdigit]
    exact getElem?_field (pre := _ :: hexDigits _ n) (k := 0) (by simp; omega) (by simp)
  case payload =>
    have hi : i < r.data.length := (List.getElem?_eq_some_iff.mp hb).1
    have hread {k : Nat} (hk : k < 2 * r.data.length) :
        (frameLine s.cfg r)[2 + n + k]? = (r.data.flatMap fun b => hexDigits b.toNat 2)[k]? := by
      have hpre : (frameLetter ext r.rtr :: (hexDigits (min r.id.toNat 0x1FFFFFFF) n ++ hexDigits r.dlc.toNat 1)).length
          = 2 + n := by simp; omega
      have := getElem?_field (post := []) hpre (payload_length r.data ▸ hk)
      simpa [hline, hr] using this
    obtain ⟨hhigh, hlow⟩ := getElem?_payload r.data hb
    have hoff : 3 + n + 2 * i = 2 + n + (2 * i + 1) := by omega
    exact ⟨(hread (by omega)).trans hhigh, hoff ▸ (hread (by omega)).trans hlow⟩

/-- After the letter an encoded line holds only the writer's digits. -/
theorem frameLine_tail_mem {c : Cfg} (h : c.sourceFixed) {r : RawFrame} (ha : Acceptable c r) :
    ∀ d ∈ (frameLine c r).tail, d ∈ lowerHex := by
  rw [frameLine_eq h ha, List.tail_cons]
  intro d hd
  rcases List.mem_append.mp hd with hd | hd
  · exact hexDigits_mem d hd
  rcases List.mem_append.mp hd with hd | hd
  · exact hexDigits_mem d hd
  · cases hr : r.rtr with
    | true => simp [hr] at hd
    | false =>
      rw [hr] at hd
      obtain ⟨b, -, hb⟩ := List.mem_flatMap.mp hd
      exact hexDigits_mem d hb

/-- Settles O21: the line is a line of the block, so it holds no terminator; its tail is digits, and its length is that of
its letter. -/
theorem encodedLineIsPlainHex : Obligations.EncodedLineIsPlainHex := by
  intro r s t l hf ht h hl
  rcases exec_cases h with ⟨x, hx, rfl⟩ | ⟨e, -, rfl⟩
  case inr => cases hl
  rw [respond_rsp] at hl
  cases hl
  obtain ⟨ha, rfl⟩ := frameEncode_eq_ok hx
  have hlen := frameLine_length hf ha
  rw [idDigits_of_sourceFixed hf] at hlen
  obtain ⟨rest, hcons⟩ : ∃ rest, frameLine s.cfg r = frameLetter (normFrame s.cfg r.id.toNat r.ext).2 r.rtr :: rest :=
    ⟨_, rfl⟩
  refine ⟨_, rest, hcons, by simpa [hcons] using frameLine_tail_mem hf ha, lineTerm_not_mem ht (blockLine_frame hf ha), ?_⟩
  obtain ⟨-, -, -, hdlc⟩ := ha
  cases hr : r.rtr with
  | true =>
    rw [hr] at hlen
    cases he : (normFrame s.cfg r.id.toNat r.ext).2 with
    | true => rw [he] at hlen; exact .inr (.inr (.inr ⟨rfl, hlen⟩))
    | false => rw [he] at hlen; exact .inr (.inl ⟨rfl, hlen⟩)
  | false =>
    rw [hr, ← hdlc hr] at hlen
    cases he : (normFrame s.cfg r.id.toNat r.ext).2 with
    | true => rw [he] at hlen; exact .inr (.inr (.inl ⟨rfl, hlen⟩))
    | false => rw [he] at hlen; exact .inl ⟨rfl, hlen⟩

/-! ### What FRAME_DECODE answers -/

/-- Settles O13: the block runs the decoded line kind, which is performed as FRAME_DECODE performs the whole line. -/
theorem frameDecodeRequestPerformsFrameDecode : Obligations.FrameDecodeRequestPerformsFrameDecode := by
  intro s l hturn hw hop hopnd
  have hdecode : decode s.fetch = .ok (decodeLine l) := by rw [State.fetch, hop, hopnd]; rfl
  rw [step_of_blockTurn hturn, blockStep, if_pos hw, hdecode]
  exact exec_decodeLine l s

/-- A line with a frame letter answers the frame its fields give (R109). -/
theorem frameDecode_answers_decodesTo {s : State} (h : s.cfg.sourceFixed) (e r : Bool) (rest : Line) :
    ∃ f, Answers (exec (.frameDecode (frameLetter e r :: rest)) s) s 0x00#8 (some (.frame f)) ∧
      DecodesTo s.cfg (frameLetter e r :: rest) (if e then 8 else 3) e r f :=
  ⟨_, frameDecode_answers s e r rest, idDigits_of_sourceFixed h e ▸ decodeFrame_decodesTo ..⟩

/-- Settles O22: each letter gives its flags, and a line that begins with none of them is no frame line. -/
theorem frameDecodeReadsTheFields : Obligations.FrameDecodeReadsTheFields := by
  intro s hf
  refine ⟨frameDecode_answers_decodesTo hf false false, frameDecode_answers_decodesTo hf false true,
    frameDecode_answers_decodesTo hf true false, frameDecode_answers_decodesTo hf true true, fun l ht hr hT hR => ?_⟩
  refine answers_of_error (e := .notAFrame) ?_
  cases l with
  | nil => rfl
  | cons b rest =>
    simp only [List.head?_cons, ne_eq, Option.some.injEq] at ht hr hT hR
    exact frameDecode_of_no_letter s.cfg (letterFlags_eq_none ht hr hT hR) rest

/-- Settles O23: a frame line kind is performed as FRAME_DECODE performs its whole line. -/
theorem frameLineKindsAnswerTheirFrame : Obligations.FrameLineKindsAnswerTheirFrame := by
  intro rest s hf
  obtain ⟨ht, hr, hT, hR, -⟩ := frameDecodeReadsTheFields s hf
  exact ⟨ht rest, hr rest, hT rest, hR rest⟩

theorem stdLetter_of_head? {l : Line} (h : l.head? = some 0x74#8 ∨ l.head? = some 0x72#8) :
    ∃ r rest, l = frameLetter false r :: rest := by
  rcases h with h | h
  · exact ⟨false, List.head?_eq_some_iff.mp h⟩
  · exact ⟨true, List.head?_eq_some_iff.mp h⟩

theorem extLetter_of_head? {l : Line} (h : l.head? = some 0x54#8 ∨ l.head? = some 0x52#8) :
    ∃ r rest, l = frameLetter true r :: rest := by
  rcases h with h | h
  · exact ⟨false, List.head?_eq_some_iff.mp h⟩
  · exact ⟨true, List.head?_eq_some_iff.mp h⟩

/-- A frame line's first byte is a letter, which gives the number of its identifier digits. -/
theorem frameLetter_of_head? {c : Cfg} (hf : c.sourceFixed) {l : Line} {n : Nat}
    (h : (l.head? = some 0x74#8 ∨ l.head? = some 0x72#8) ∧ n = 3 ∨ (l.head? = some 0x54#8 ∨ l.head? = some 0x52#8) ∧ n = 8) :
    ∃ e r rest, l = frameLetter e r :: rest ∧ n = idDigits c e := by
  rcases h with ⟨hhead, hn⟩ | ⟨hhead, hn⟩
  · obtain ⟨r, rest, hl⟩ := stdLetter_of_head? hhead
    exact ⟨false, r, rest, hl, hn.trans (idDigits_of_sourceFixed hf false).symm⟩
  · obtain ⟨r, rest, hl⟩ := extLetter_of_head? hhead
    exact ⟨true, r, rest, hl, hn.trans (idDigits_of_sourceFixed hf true).symm⟩

/-- Settles O26: FRAME_DECODE answers a frame or NotAFrame, and a frame where the line begins with a frame letter. -/
theorem frameDecodeNeverInvalidFrame : Obligations.FrameDecodeNeverInvalidFrame := by
  intro l s t h
  rw [exec_eq, outcomeOf] at h
  rcases frameDecode_cases s.cfg l with ⟨e, r, rest, -, ho⟩ | ⟨ho, hno⟩ <;> rw [ho] at h <;> cases h
  · exact ⟨(by decide : statusOk ≠ 0x01#8), fun _ => rfl⟩
  · refine ⟨(by decide : Err.notAFrame.code ≠ 0x01#8), fun hhead => ?_⟩
    rcases or_assoc.mpr hhead with hstd | hext
    · obtain ⟨r, rest, hl⟩ := stdLetter_of_head? hstd
      exact absurd hl (hno false r rest)
    · obtain ⟨r, rest, hl⟩ := extLetter_of_head? hext
      exact absurd hl (hno true r rest)

/-! ### The fields that fix a decoded frame -/

/-- Two lines with the same identifier, length and, for a data frame, payload fields decode to the same frame. -/
theorem decodeFrame_congr {c : Cfg} {l l' : Line} {e r : Bool}
    (hid : parseField l 1 (idDigits c e) = parseField l' 1 (idDigits c e))
    (hdlc : parseField l (1 + idDigits c e) 1 = parseField l' (1 + idDigits c e) 1)
    (hdata : r = false → ∀ i < (decodeFrame c l e r).dlc.toNat,
      parseField l (2 + idDigits c e + 2 * i) 2 = parseField l' (2 + idDigits c e + 2 * i) 2) :
    decodeFrame c l e r = decodeFrame c l' e r := by
  obtain ⟨-, -, -, hlen, -, -⟩ := decodeFrame_decodesTo c l e r
  rw [← parseField_eq] at hlen
  rw [hlen] at hdata
  simp only [decodeFrame, ← hid, ← hdlc, Frame.mk.injEq, true_and]
  cases r with
  | true => rfl
  | false => exact List.map_congr_left fun i hi => by rw [hdata rfl i (List.mem_range.mp hi)]

/-- Settles O28: the length digit is the field after the identifier's, and 9 or more is capped. -/
theorem lengthDigitIsCapped : Obligations.LengthDigitIsCapped := by
  intro b d ids rest v s t hf hb hd hv h
  obtain ⟨e, r, _, hl, hlen⟩ := frameLetter_of_head? (l := b :: (ids ++ d :: rest)) hf (by simpa using hb)
  cases hl
  have hfield : fieldValue (frameLetter e r :: (ids ++ d :: rest)) (1 + idDigits s.cfg e) 1 = v := by
    have hpre : (frameLetter e r :: ids).length = 1 + idDigits s.cfg e := by rw [List.length_cons, hlen, Nat.add_comm]
    have hmid := parseField_mid (fld := [d]) (post := rest) hpre rfl
    simpa [parseField_eq, numeral, hexval_eq_digitValue, hd] using hmid
  obtain ⟨-, -, -, hdlc, -, -⟩ := decodeFrame_decodesTo s.cfg (frameLetter e r :: (ids ++ d :: rest)) e r
  obtain ⟨-, -, hmax, -, -⟩ := frame_params hf
  have hanswer := frameDecode_answers s e r (ids ++ d :: rest)
  rw [answers_iff, h] at hanswer
  cases hanswer
  refine ⟨_, rfl, ?_⟩
  rw [hdlc, hfield, hmax]
  exact Nat.min_eq_right (by simp; omega)

/-- Settles O29: every field that is read lies inside the line, and reads the same with bytes after the line. -/
theorem bytesAfterTheLastFieldAreIgnored : Obligations.BytesAfterTheLastFieldAreIgnored := by
  intro l extra s n f hf hl hans hlong
  obtain ⟨e, r, rest, rfl, rfl⟩ := frameLetter_of_head? hf hl
  obtain ⟨-, hframe⟩ := answers_unique hans (frameDecode_answers s e r rest)
  cases hframe
  have hrtr : (decodeFrame s.cfg (frameLetter e r :: rest) e r).rtr = r := rfl
  rw [hrtr] at hlong
  have hsame : decodeFrame s.cfg (frameLetter e r :: rest) e r = decodeFrame s.cfg (frameLetter e r :: rest ++ extra) e r := by
    refine decodeFrame_congr (parseField_append ?_).symm (parseField_append ?_).symm fun hr i hi => (parseField_append ?_).symm
    · omega
    · omega
    · rw [hr] at hlong hi ⊢
      simp only [Bool.false_eq_true, if_false] at hlong
      omega
  rw [hsame]
  exact frameDecode_answers s e r (rest ++ extra)

/-- A malformed field reads 0 (R107). -/
theorem parseField_malformed {pre fld post : Line} {off n : Nat} (hpre : pre.length = off) (hfld : fld.length = n)
    (h : ∃ d ∈ fld, digitValue d = none) : parseField (pre ++ (fld ++ post)) off n = 0 := by
  rw [parseField_mid hpre hfld, numeral_eq_none h]; rfl

/-- The identifier field of zeros reads 0. -/
theorem hexDigits_zero (n : Nat) : hexDigits 0 n = List.replicate n 0x30#8 := by
  induction n with
  | zero => rfl
  | succ n ih => rw [hexDigits, Nat.zero_div, ih, List.replicate_succ']; rfl

/-- A line with a malformed identifier decodes as the one with zeros in its place (R107). -/
theorem frameDecode_malformed_id (c : Cfg) (e r : Bool) {ids : Line} (hlen : ids.length = idDigits c e)
    (h : ∃ d ∈ ids, digitValue d = none) (rest : Line) :
    frameDecode c (frameLetter e r :: (ids ++ rest)) =
      frameDecode c (frameLetter e r :: (List.replicate (idDigits c e) 0x30#8 ++ rest)) := by
  have hheads : (frameLetter e r :: ids).length = (frameLetter e r :: List.replicate (idDigits c e) 0x30#8).length := by
    simp [hlen]
  have htail (k m : Nat) : parseField (frameLetter e r :: (ids ++ rest)) (1 + idDigits c e + k) m =
      parseField (frameLetter e r :: (List.replicate (idDigits c e) 0x30#8 ++ rest)) (1 + idDigits c e + k) m :=
    parseField_tail hheads (by rw [List.length_cons, hlen]; omega)
  have hid : parseField (frameLetter e r :: (ids ++ rest)) 1 (idDigits c e) = 0 :=
    parseField_malformed (pre := [_]) rfl hlen h
  have hzero : parseField (frameLetter e r :: (List.replicate (idDigits c e) 0x30#8 ++ rest)) 1 (idDigits c e) = 0 := by
    rw [← hexDigits_zero]
    exact parseField_hexDigits (pre := [_]) rfl (by positivity)
  rw [frameDecode_letter, frameDecode_letter]
  congr 2
  refine decodeFrame_congr (hid.trans hzero.symm) (htail 0 1) fun _ i _ => ?_
  have hoff : 2 + idDigits c e + 2 * i = 1 + idDigits c e + (1 + 2 * i) := by omega
  rw [hoff]
  exact htail (1 + 2 * i) 2

/-- Settles O30: in each of the four kinds the malformed field and the field of zeros both read 0. -/
theorem malformedIdentifierReadsAsZero : Obligations.MalformedIdentifierReadsAsZero := by
  intro ids rest s hf hbad
  have hsame (e r : Bool) (hlen : ids.length = if e then 8 else 3) :
      s.complete (frameDecode s.cfg (frameLetter e r :: (ids ++ rest))) =
        s.complete (frameDecode s.cfg (frameLetter e r :: (List.replicate (if e then 8 else 3) 0x30#8 ++ rest))) := by
    rw [← idDigits_of_sourceFixed hf] at hlen ⊢
    rw [frameDecode_malformed_id s.cfg e r hlen hbad]
  exact ⟨fun hlen => ⟨hsame false false hlen, hsame false true hlen⟩, fun hlen => ⟨hsame true false hlen, hsame true true hlen⟩⟩

/-! ### The case of digits -/

/-- A letter A to F in lower case, and any other byte as it is. -/
def lowerCase (d : Byte) : Byte := if 0x41 ≤ d.toNat ∧ d.toNat ≤ 0x46 then d + 0x20#8 else d

/-- A digit has one value in both cases (R5). -/
theorem hexval_lowerCase (d : Byte) : hexval (lowerCase d) = hexval d := by
  unfold lowerCase
  split
  case isTrue h =>
    have hlower : (d + 0x20#8).toNat = d.toNat + 0x20 := by rw [BitVec.toNat_add]; simp; omega
    simp only [hexval, hlower]
    rw [if_neg (by omega), if_pos (by omega), if_neg (by omega), if_neg (by omega), if_pos h]
    congr 1
  case isFalse => rfl

theorem numeral_map_lowerCase (acc : Nat) (l : Line) : numeral acc (l.map lowerCase) = numeral acc l := by
  induction l generalizing acc with
  | nil => rfl
  | cons d l ih => simp only [List.map_cons, numeral, hexval_lowerCase, ih]

/-- A field after the first byte reads the same in lower case. -/
theorem parseField_map_lowerCase (b : Byte) (rest : Line) (off n : Nat) :
    parseField (b :: rest) (off + 1) n = parseField (b :: rest.map lowerCase) (off + 1) n := by
  simp only [parseField, List.length_cons, List.length_map, List.drop_succ_cons, ← List.map_drop, ← List.map_take,
    numeral_map_lowerCase]

theorem frameDecode_map_lowerCase (c : Cfg) (b : Byte) (rest : Line) :
    frameDecode c (b :: rest) = frameDecode c (b :: rest.map lowerCase) := by
  cases h : letterFlags b with
  | none => rw [frameDecode_of_no_letter c h, frameDecode_of_no_letter c h]
  | some p =>
    have hfield (off n : Nat) := parseField_map_lowerCase b rest off n
    have hb := letterFlags_eq_some h
    rw [hb, frameDecode_letter, frameDecode_letter, ← hb]
    congr 2
    refine decodeFrame_congr (hfield 0 _) ?_ fun _ i _ => ?_
    · rw [Nat.add_comm]; exact hfield _ 1
    · have hoff : 2 + idDigits c p.1 + 2 * i = 1 + idDigits c p.1 + 2 * i + 1 := by omega
      rw [hoff]; exact hfield _ 2

/-- Settles O31: every field that is read lies after the first byte, and a digit's value is the same in both cases. -/
theorem frameDecodeIgnoresDigitCase : Obligations.FrameDecodeIgnoresDigitCase := fun b rest s =>
  congrArg s.complete (frameDecode_map_lowerCase s.cfg b rest)

/-! ### The round trip of a frame -/

theorem toRaw_dlc_toNat (f : Frame) : f.toRaw.dlc.toNat = f.dlc.toNat := by
  have := f.dlc.isLt
  simp [Frame.toRaw]
  omega

theorem toRaw_acceptable {c : Cfg} {f : Frame} (h : f.legal c) : Acceptable c f.toRaw := by
  obtain ⟨-, -, hmax, hdata, hrtr⟩ := h
  rw [Acceptable, toRaw_dlc_toNat]
  refine ⟨?_, hmax, hrtr, fun hr => (hdata hr).symm⟩
  cases hr : f.rtr with
  | true => simp [Frame.toRaw, hrtr hr]
  | false => exact (hdata hr).trans_le hmax

/-- The line of a frame that meets the invariants: normalising changes nothing (R116). -/
theorem frameLine_toRaw {c : Cfg} (h : c.sourceFixed) {f : Frame} (hl : f.legal c) :
    frameLine c f.toRaw = frameLetter f.ext f.rtr :: (hexDigits f.id.toNat (idDigits c f.ext) ++
      (hexDigits f.dlc.toNat 1 ++ if f.rtr then [] else f.data.flatMap fun b => hexDigits b.toNat 2)) := by
  have hline := frameLine_eq h (toRaw_acceptable hl)
  obtain ⟨hid, hstd, -, -, -⟩ := hl
  have hnorm : normFrame c f.toRaw.id.toNat f.toRaw.ext = (f.id, f.ext) := normFrame_of_legal c f.id f.ext hid hstd
  have hmin : min f.toRaw.id.toNat 0x1FFFFFFF = f.id.toNat := by
    obtain ⟨-, hmax, -⟩ := frame_params h
    rw [hmax] at hid
    exact Nat.min_eq_left hid
  rw [hnorm, hmin, toRaw_dlc_toNat] at hline
  exact hline

/-- The identifier of a legal frame has no more digits than its field. -/
theorem legal_id_lt {c : Cfg} (h : c.sourceFixed) {f : Frame} (hl : f.legal c) : f.id.toNat < 16 ^ idDigits c f.ext := by
  obtain ⟨hid, hstd, -⟩ := hl
  obtain ⟨hsmall, hlarge, -⟩ := frame_params h
  rw [hsmall] at hstd
  rw [hlarge] at hid
  rw [idDigits_of_sourceFixed h]
  cases he : f.ext with
  | true => simp at hid ⊢; omega
  | false => rw [he] at hstd; simp at hstd ⊢; omega

/-- FRAME_DECODE reads back the fields FRAME_ENCODE wrote. -/
theorem decodeFrame_frameLine {c : Cfg} (h : c.sourceFixed) {f : Frame} (hl : f.legal c) :
    decodeFrame c (frameLine c f.toRaw) f.ext f.rtr = f := by
  have hline := frameLine_toRaw h hl
  have hidlt := legal_id_lt h hl
  obtain ⟨hid, hstd, hmax, hdata, hrtr⟩ := hl
  have hidField : parseField (frameLine c f.toRaw) 1 (idDigits c f.ext) = f.id.toNat := by
    rw [hline]
    exact parseField_hexDigits (pre := [_]) rfl hidlt
  have hdlcField : parseField (frameLine c f.toRaw) (1 + idDigits c f.ext) 1 = f.dlc.toNat := by
    rw [hline]
    exact parseField_hexDigits (pre := _ :: hexDigits _ _) (by simp; omega) f.dlc.isLt
  have hpayload : (if f.rtr then [] else (List.range f.dlc.toNat).map fun i =>
      BitVec.ofNat 8 (parseField (frameLine c f.toRaw) (2 + idDigits c f.ext + 2 * i) 2)) = f.data := by
    cases hr : f.rtr with
    | true => exact (hrtr hr).symm
    | false =>
      have hread := parse_payload
        (frameLetter f.ext f.rtr :: (hexDigits f.id.toNat (idDigits c f.ext) ++ hexDigits f.dlc.toNat 1)) f.data
      have hpre : idDigits c f.ext + 1 + 1 = 2 + idDigits c f.ext := by omega
      simpa [hline, hr, hdata hr, hex_byte, hpre] using hread
  have hnorm : normFrame c f.id.toNat f.ext = (f.id, f.ext) := normFrame_of_legal c f.id f.ext hid hstd
  simp only [decodeFrame, hidField, hdlcField, Nat.min_eq_left hmax, hnorm, hpayload, BitVec.ofNat_toNat, BitVec.setWidth_eq]

/-- Settles O25: the line of an accepted frame holds its fields, and FRAME_DECODE reads them back. -/
theorem encodeThenDecodeReturnsTheFrame : Obligations.EncodeThenDecodeReturnsTheFrame := by
  intro f s hf hl
  refine ⟨_, answers_of_ok (frameEncode_of_acceptable (toRaw_acceptable hl)), fun s' hcfg => ?_⟩
  have hanswer : frameDecode s.cfg (frameLine s.cfg f.toRaw) = .ok (.frame f) := by
    have hback := decodeFrame_frameLine hf hl
    rw [frameLine_toRaw hf hl] at hback ⊢
    rw [frameDecode_letter, hback]
  exact answers_of_ok (hcfg ▸ hanswer)

end Sys2Proof.Machine

/-! The bit-timing calculator (`41_bit_timing.md`): which of its three outcomes a rate has, what is known of an instruction
that answered a custom result, the search's winner in the words of R144 to R148, and the numbers of R2 in them. -/

namespace Sys2Proof.Machine

/-! ### The three outcomes of a rate -/

theorem baudCompute_zero (c : Cfg) : baudCompute c 0#32 = .error .badBaud := if_pos rfl

theorem baudCompute_of_preset {c : Cfg} {b : BitVec 32} {i : Fin 9} (hb : b ≠ 0#32) (h : presetIndex c b = some i) :
    baudCompute c b = .ok (.baud (.preset i [0x53#8, c.presetChar[i]])) := by
  rw [baudCompute, if_neg hb, h]; rfl

theorem baudCompute_of_no_preset {c : Cfg} {b : BitVec 32} (hb : b ≠ 0#32) (h : presetIndex c b = none) :
    baudCompute c b = .ok (.baud (.custom (customTiming c b))) := by
  rw [baudCompute, if_neg hb, h]

/-- A custom result is the search's, of a rate other than zero. -/
theorem baudCompute_eq_custom {c : Cfg} {b : BitVec 32} {k : CustomTiming} (h : baudCompute c b = .ok (.baud (.custom k))) :
    b ≠ 0#32 ∧ k = customTiming c b := by
  have hb : b ≠ 0#32 := by
    rintro rfl
    rw [baudCompute_zero] at h
    cases h
  refine ⟨hb, ?_⟩
  cases hp : presetIndex c b with
  | some i => rw [baudCompute_of_preset hb hp] at h; cases h
  | none => rw [baudCompute_of_no_preset hb hp] at h; cases h; rfl

/-- What a custom result in the response says of the instruction that wrote it. -/
theorem exec_baudCompute_custom {b : BitVec 32} {s t : State} {k : CustomTiming} (h : exec (.baudCompute b) s = .next t)
    (hk : t.rsp.result = some (.baud (.custom k))) : b ≠ 0#32 ∧ k = customTiming s.cfg b := by
  rcases exec_cases h with ⟨r, hr, rfl⟩ | ⟨e, -, rfl⟩
  · cases hk; exact baudCompute_eq_custom hr
  · cases hk

/-- Settles O32: the rate zero raises BadBaud; any other is a preset's or is searched, and both are results. -/
theorem onlyZeroBaudIsRefused : Obligations.OnlyZeroBaudIsRefused := by
  intro b s
  refine ⟨?zero, fun hb => ?other⟩
  case zero => rintro rfl; exact answers_of_error (e := .badBaud) (baudCompute_zero s.cfg)
  case other =>
    cases hp : presetIndex s.cfg b with
    | some i => exact ⟨_, answers_of_ok (baudCompute_of_preset hb hp)⟩
    | none => exact ⟨_, answers_of_ok (baudCompute_of_no_preset hb hp)⟩

/-- Settles O33: the rates of a well-formed configuration are distinct, so a preset rate finds its own index. -/
theorem presetRateAnswersItsLine : Obligations.PresetRateAnswersItsLine := by
  intro i s hw hb
  obtain ⟨-, -, -, -, -, -, -, -, hnodup, -⟩ := Cfg.wf_clauses hw
  exact answers_of_ok (baudCompute_of_preset hb (presetIndex_rate hnodup i))

/-- A rate that is neither zero nor a preset's is answered with the search's result. -/
theorem answers_customTiming {b : BitVec 32} {s : State} (hb : b ≠ 0#32) (hp : ∀ i : Fin 9, s.cfg.presetRates[i] ≠ b) :
    Answers (exec (.baudCompute b) s) s 0x00#8 (some (.baud (.custom (customTiming s.cfg b)))) :=
  answers_of_ok (baudCompute_of_no_preset hb (presetIndex_none hp))

/-! ### The winner of the search -/

theorem customTiming_xdesired (c : Cfg) (b : BitVec 32) : (customTiming c b).xdesired = c.oscHz.toNat / b.toNat := rfl

/-- The winner's divisor is the rounded and clamped one of its bit time (R144, R145). -/
theorem customTiming_isDivisor {c : Cfg} (hw : c.wf = true) (hmin : 1 ≤ c.xMin.toNat) (b : BitVec 32) :
    IsDivisor c (customTiming c b).xdesired (customTiming c b).x (customTiming c b).xbrp := by
  obtain ⟨-, hx, -⟩ := Cfg.wf_clauses hw
  obtain ⟨x, hlo, -, hsearch, -⟩ := search_spec c (c.oscHz.toNat / b.toNat) hx
  simp only [customTiming, hsearch]
  exact (isDivisor_iff (hmin.trans hlo)).mpr rfl

/-- No bit time comes nearer than the winner, and no smaller one as near (R148). -/
theorem customTiming_firstNearest {c : Cfg} (hw : c.wf = true) (hmin : 1 ≤ c.xMin.toNat) (b : BitVec 32) {y z : Nat}
    (hlo : c.xMin.toNat ≤ y) (hhi : y ≤ c.xMax.toNat) (hz : IsDivisor c (customTiming c b).xdesired y z) :
    (customTiming c b).diff ≤ distance (customTiming c b).xdesired y z ∧
      (y < (customTiming c b).x → (customTiming c b).diff < distance (customTiming c b).xdesired y z) := by
  obtain ⟨-, hx, -⟩ := Cfg.wf_clauses hw
  obtain ⟨x, -, -, hsearch, hbest⟩ := search_spec c (c.oscHz.toNat / b.toNat) hx
  rw [(isDivisor_iff (hmin.trans hlo)).mp hz, ← candidate_diff, customTiming_xdesired]
  simp only [customTiming, hsearch]
  exact hbest y hlo hhi

/-- Settles O34: the answer is the search's winner, whose divisor, distance and choice are R144 to R148. -/
theorem customRateAnswersTheFirstNearest : Obligations.CustomRateAnswersTheFirstNearest := by
  intro b s hw hmin hb hp
  obtain ⟨hlo, hhi, -, -, -, -, hdiff, -⟩ := customTiming_legal hw b
  exact ⟨_, answers_customTiming hb hp, customTiming_xdesired s.cfg b, hlo, hhi, customTiming_isDivisor hw hmin b, hdiff,
    fun _ _ => customTiming_firstNearest hw hmin b⟩

/-- Settles O36: without a distance `x × xbrp` is `OSC_HZ / baud`, and the rate divides `OSC_HZ`. -/
theorem noDistanceMeansTheExactRate : Obligations.NoDistanceMeansTheExactRate := by
  intro b s t k hw _ hdvd hexec hk hzero
  obtain ⟨-, rfl⟩ := exec_baudCompute_custom hexec hk
  obtain ⟨hosc, -⟩ := Cfg.wf_clauses hw
  obtain ⟨-, -, -, -, -, -, hdiff, -⟩ := customTiming_legal hw b
  have hproduct : (customTiming s.cfg b).x * (customTiming s.cfg b).xbrp = s.cfg.oscHz.toNat / b.toNat := by
    rw [hzero, distance] at hdiff
    rw [← customTiming_xdesired]
    omega
  have hrate : b.toNat * (s.cfg.oscHz.toNat / b.toNat) = s.cfg.oscHz.toNat := Nat.mul_div_cancel' hdvd
  have hne : ((s.cfg.oscHz.toNat / b.toNat : Nat) : Rat) ≠ 0 := by
    rw [Nat.cast_ne_zero]
    intro h
    rw [h] at hrate
    omega
  rw [CustomTiming.achievedRate, hproduct, div_eq_iff hne, ← Nat.cast_mul, hrate]

/-! ### The numbers of R2 -/

theorem timing_params {c : Cfg} (h : c.sourceFixed) :
    c.xMin.toNat = 11 ∧ c.xMax.toNat = 23 ∧ c.xbrpMin.toNat = 2 ∧ c.xbrpMax.toNat = 128 ∧ c.cnf1Fixed = 0xC0#8 := by
  obtain ⟨-, hxMin, hxMax, hbrpMin, hbrpMax, hcnf1, -⟩ := h
  simp [hxMin, hxMax, hbrpMin, hbrpMax, hcnf1]

/-- Settles O35: every custom result is legal; its clauses with the numbers of R2 are the rules' own. -/
theorem customResultFieldsAndLine : Obligations.CustomResultFieldsAndLine := by
  intro b s t k hw _ hexec hk
  obtain ⟨-, rfl⟩ := exec_baudCompute_custom hexec hk
  have hlegal := customTiming_legal hw b
  refine ⟨hlegal, fun hf => ?_⟩
  obtain ⟨hlo, hhi, hbrpLo, hbrpHi, heven, hbrp, -, hcnf1, hcnf23, hline⟩ := hlegal
  obtain ⟨hxMin, hxMax, hbrpMin, hbrpMax, hfixed⟩ := timing_params hf
  rw [hxMin] at hlo hcnf23
  rw [hxMax] at hhi
  rw [hbrpMin] at hbrpLo
  rw [hbrpMax] at hbrpHi
  rw [hfixed] at hcnf1
  refine ⟨hlo, hhi, hbrpLo, hbrpHi, heven, hbrp, hcnf1, ?fixedBits, hcnf23, ?length⟩
  case fixedBits => rw [hcnf1, BitVec.toNat_or]; exact Nat.right_le_or
  case length => rw [hline]; simp [twoDigits_length]

/-- A desired product of zero rounds to zero and is clamped to the smallest divisor (R144, R145). -/
theorem candidateXbrp_zero (c : Cfg) {x : Nat} (hx : 1 ≤ x) : candidateXbrp c 0 x = c.xbrpMin.toNat := by
  have hround : roundTo20 (floorDiv (0 * 10) x) = 0 := by
    rw [floorDiv, if_neg (by omega), Nat.zero_mul, Nat.zero_div]; rfl
  rw [candidateXbrp, hround]
  omega

theorem isDivisor_zero_iff {c : Cfg} (hf : c.sourceFixed) {x z : Nat} (hx : 1 ≤ x) : IsDivisor c 0 x z ↔ z = 2 := by
  obtain ⟨-, -, hbrpMin, -⟩ := timing_params hf
  rw [isDivisor_iff hx, candidateXbrp_zero c hx, hbrpMin]

/-- Settles O38: every bit time x gets the divisor 2, so its distance is 2x, and the smallest x is the nearest. -/
theorem rateAboveOscillatorSaturates : Obligations.RateAboveOscillatorSaturates := by
  intro b s hw hf hlt hp
  have hb : b ≠ 0#32 := by rintro rfl; exact Nat.not_lt_zero _ hlt
  refine ⟨_, answers_customTiming hb hp, ?_⟩
  obtain ⟨hxMin, hxMax, -, -, hfixed⟩ := timing_params hf
  obtain ⟨hlo, -, -, -, -, hbrp, hdiff, hcnf1, -⟩ := customTiming_legal hw b
  have hmin : 1 ≤ s.cfg.xMin.toNat := by omega
  have hxd : (customTiming s.cfg b).xdesired = 0 := Nat.div_eq_of_lt hlt
  have hdivisor := customTiming_isDivisor hw hmin b
  have hbest := customTiming_firstNearest hw hmin b (y := 11) (z := 2) (by omega) (by omega)
  rw [hxd] at hdivisor hbest hdiff
  have hxbrp : (customTiming s.cfg b).xbrp = 2 := (isDivisor_zero_iff hf (hmin.trans hlo)).mp hdivisor
  obtain ⟨hnear, -⟩ := hbest ((isDivisor_zero_iff hf (by decide)).mpr rfl)
  rw [hxbrp, distance] at hdiff
  rw [distance] at hnear
  have hx : (customTiming s.cfg b).x = 11 := by omega
  have hbrpZero : (customTiming s.cfg b).brp = 0#6 := BitVec.eq_of_toNat_eq (by rw [hbrp, hxbrp]; rfl)
  have hcnf1Fixed : (customTiming s.cfg b).cnf1 = 0xC0#8 := by rw [hcnf1, hbrpZero, hfixed]; rfl
  exact ⟨hxd, hx, hxbrp, hbrpZero, hcnf1Fixed, by omega⟩

end Sys2Proof.Machine

/-! The filter register encoder (`42_filter_encoder.md` R170 to R185): the tuples and lines of one pattern and one write,
where the chains are placed and when they are refused, the writes of a placement and their addresses. -/

namespace Sys2Proof.Machine

/-! ### One pattern and one register write -/

/-- Settles O39: the meaning is `regs`, whose bits `regs_bits` gives; a mask does not take `EXIDE_BIT`, so any `CFG` will do. -/
theorem maskTupleBits : Obligations.MaskTupleBits := by
  intro p s
  exact ⟨regs s.cfg p false, answers_of_ok rfl, regs_bits s.cfg p false (by simp)⟩

theorem maskStride_of_sourceFixed {c : Cfg} (h : c.sourceFixed) : c.maskStride = 4#8 := by
  obtain ⟨-, -, -, -, -, -, -, hstride, -⟩ := h
  exact hstride

theorem exideBit_of_sourceFixed {c : Cfg} (h : c.sourceFixed) : c.exideBit = 0x08#8 := by
  obtain ⟨-, -, -, -, -, -, hexide, -⟩ := h
  exact hexide

/-- Settles O40: as for a mask, with the `EXIDE_BIT` of the source as bit 3. -/
theorem filterValueTupleBits : Obligations.FilterValueTupleBits := by
  intro p s hf
  exact ⟨regs s.cfg p true, answers_of_ok rfl, regs_bits s.cfg p true fun _ => exideBit_of_sourceFixed hf⟩

/-- Settles O47: the meaning is the register-write line. -/
theorem regWriteFormatLine : Obligations.RegWriteFormatLine := by
  intro w s
  rw [← regWriteLine_eq]
  exact answers_of_ok rfl

/-- Settles O44: only FILTER_PROGRAM answers a program, and its lines are the writes' one by one. -/
theorem programLinesMatchWrites : Obligations.ProgramLinesMatchWrites := by
  intro i s t ws ls h hr
  obtain ⟨cs, p, -, -, -, rfl⟩ := program_result h hr
  refine ⟨List.length_map .., fun k w hw => ?_⟩
  rw [List.getElem?_map, hw, Option.map_some, regWriteLine_eq]

/-! ### The placement of the chains -/

theorem placeChains_nil (c : Cfg) : placeChains c [] = .ok none := by simp [placeChains]

/-- A placement leaves the slots empty only where there is no chain (R175). -/
theorem eq_none_iff_of_placeChains {c : Cfg} {cs : List FilterChain} {p : Option (FilterChain × FilterChain)}
    (h : placeChains c cs = .ok p) : p = none ↔ cs = [] := by
  unfold placeChains at h
  split at h
  case isTrue => cases h
  case isFalse =>
    split at h
    case h_1 => cases h; simp
    case h_2 => split at h <;> cases h; simp
    case h_3 => dsimp only at h; split_ifs at h <;> cases h <;> simp
    case h_4 hnil _ _ => cases h; simpa using hnil

theorem placeChains_one {c : Cfg} (hf : c.sourceFixed) {a : FilterChain} (h : a.filters.length ≤ 4) :
    placeChains c [a] = .ok (some (a, a)) := by
  rw [placeChains_of_sourceFixed hf]
  exact if_neg (by omega)

/-- Two chains within the bounds, by which of them is the shorter (R178). -/
theorem placeChains_two {c : Cfg} (hf : c.sourceFixed) {a b : FilterChain}
    (hmin : min a.filters.length b.filters.length ≤ 2) (hmax : max a.filters.length b.filters.length ≤ 4) :
    placeChains c [a, b] = .ok (some (if b.filters.length < a.filters.length then (b, a) else (a, b))) := by
  rw [placeChains_of_sourceFixed hf]
  exact if_neg (by omega)

/-- The shorter of two chains is slot 0's wherever it stands (R178). -/
theorem placeChains_comm (c : Cfg) {a b : FilterChain} (h : a.filters.length ≠ b.filters.length) :
    placeChains c [a, b] = placeChains c [b, a] := by
  rcases Nat.lt_or_gt_of_ne h with hlt | hlt <;>
    simp only [placeChains, if_pos hlt, if_neg (Nat.lt_asymm hlt), List.length_cons, List.length_nil]

/-- Settles O46: the placement is the same in either order, so the outcome is. -/
theorem chainOrderDoesNotMatter : Obligations.ChainOrderDoesNotMatter := by
  intro a b s t t' hne h h'
  have hprogram : filterProgram s.cfg [a, b] = filterProgram s.cfg [b, a] := by
    rw [filterProgram, filterProgram, placeChains_comm s.cfg hne]
  rw [exec_eq, outcomeOf] at h h'
  rw [hprogram, h'] at h
  cases h
  rfl

/-- What FILTER_PROGRAM answers chains that are placed (R183). -/
theorem answers_program {s : State} {cs : List FilterChain} {p : Option (FilterChain × FilterChain)}
    (h : placeChains s.cfg cs = .ok p) :
    Answers (exec (.filterProgram cs) s) s 0x00#8
      (some (.program (programWrites s.cfg p) ((programWrites s.cfg p).map regWriteLine))) :=
  answers_of_ok (by rw [outcomeOf, filterProgram, h])

/-- What FILTER_PROGRAM answers chains that are refused (R185). -/
theorem answers_refusal {s : State} {cs : List FilterChain} {e : Err} (h : placeChains s.cfg cs = .error e) :
    Answers (exec (.filterProgram cs) s) s e.code none :=
  answers_of_error (by rw [outcomeOf, filterProgram, h])

/-- Settles O41: each clause is a branch of the placement under the source's bounds. -/
theorem filterProgramBounds : Obligations.FilterProgramBounds := by
  intro s hf
  refine ⟨fun cs h => answers_refusal (e := .tooManyFilterChains) ?many,
    fun a h => answers_refusal (e := .filterChainTooLong) ?oneLong,
    fun a b h => answers_refusal (e := .filterChainTooLong) ?twoLong,
    fun a h => ⟨_, _, answers_program (placeChains_one hf h)⟩,
    fun a b hmin hmax => ⟨_, _, answers_program (placeChains_two hf hmin hmax)⟩⟩
  all_goals rw [placeChains_of_sourceFixed hf]
  case many =>
    match cs, h with
    | _ :: _ :: _ :: _, _ => rfl
  case oneLong => exact if_pos h
  case twoLong => exact if_pos h

/-! ### The writes of a placement -/

/-- Slot 1's mask register stands four above slot 0's (R181), and no chain writes zeros to both (R175). -/
theorem programWrites_none {c : Cfg} (hf : c.sourceFixed) :
    programWrites c none =
      [⟨c.maskBase0, 0⟩, ⟨c.maskBase0 + 1, 0⟩, ⟨c.maskBase0 + 2, 0⟩, ⟨c.maskBase0 + 3, 0⟩,
        ⟨c.maskBase0 + 4, 0⟩, ⟨c.maskBase0 + 5, 0⟩, ⟨c.maskBase0 + 6, 0⟩, ⟨c.maskBase0 + 7, 0⟩] := by
  simp [programWrites, tupleWrites, maskBase, maskStride_of_sourceFixed hf, zeroTuple, ofNat_toNat_add, Nat.add_assoc]

/-- Settles O42: without a chain the slots stay empty. -/
theorem noChainZeroesBothMasks : Obligations.NoChainZeroesBothMasks := by
  intro s hf
  have hanswer := answers_program (placeChains_nil s.cfg)
  rw [programWrites_none hf] at hanswer
  exact ⟨_, hanswer⟩

/-- Under the source's slot sizes a placement's writes are 12 of slot 0 and 20 of slot 1 (R182). -/
theorem programWrites_some {c : Cfg} (hf : c.sourceFixed) (c0 c1 : FilterChain) :
    programWrites c (some (c0, c1)) = slotWrites c 0 0 2 c0 ++ slotWrites c 1 2 4 c1 := by
  obtain ⟨-, -, -, -, -, -, -, -, h0, h1, -⟩ := hf
  rw [programWrites, h0, h1]
  rfl

/-- Slot 0's part of a placement's writes. -/
theorem take_drop_slot0 (c : Cfg) (c0 : FilterChain) (ws : List RegWrite) {n : Nat} (hn : n ≤ 8) :
    ((slotWrites c 0 0 2 c0 ++ ws).drop n).take 4 = ((slotWrites c 0 0 2 c0).drop n).take 4 := by
  have hlen := slotWrites_length c 0 0 2 c0
  rw [List.drop_append_of_le_length (by omega), List.take_append_of_le_length (by rw [List.length_drop]; omega)]

/-- Slot 1's part of a placement's writes. -/
theorem drop_slot0 (c : Cfg) (c0 : FilterChain) (ws : List RegWrite) (n : Nat) :
    (slotWrites c 0 0 2 c0 ++ ws).drop (12 + n) = ws.drop n := by
  have hlen : (slotWrites c 0 0 2 c0).length = 12 := slotWrites_length c 0 0 2 c0
  rw [← hlen, List.drop_length_add_append]

/-- Where the chains of R177 and R178 go. -/
theorem placeChains_slots {c : Cfg} (hf : c.sourceFixed) {cs : List FilterChain} {c0 c1 : FilterChain}
    (h : cs = [c0] ∧ c1 = c0 ∧ c0.filters.length ≤ 4 ∨
      (cs = [c0, c1] ∧ c0.filters.length ≤ c1.filters.length ∨ cs = [c1, c0] ∧ c0.filters.length < c1.filters.length) ∧
        c0.filters.length ≤ 2 ∧ c1.filters.length ≤ 4) : placeChains c cs = .ok (some (c0, c1)) := by
  rcases h with ⟨rfl, rfl, hlen⟩ | ⟨⟨rfl, hle⟩ | ⟨rfl, hlt⟩, h0, h1⟩
  · exact placeChains_one hf hlen
  · rw [placeChains_two hf (by omega) (by omega), if_neg (by omega)]
  · rw [placeChains_two hf (by omega) (by omega), if_pos hlt]

/-- Settles O43: the chains are placed as R177 and R178 say, and each part of the write list is its slot's mask or filter
register. -/
theorem filterProgramLayout : Obligations.FilterProgramLayout := by
  intro s cs c0 c1 hf h
  have hexide := exideBit_of_sourceFixed hf
  have hstride := maskStride_of_sourceFixed hf
  refine ⟨_, _, answers_program (placeChains_slots hf h), programWrites_length hf _, ?_⟩
  rw [programWrites_some hf]
  refine ⟨?mask0, fun i hi => ?filter0, ?mask1, fun i hi => ?filter1⟩
  case mask0 =>
    have htake := take_drop_slot0 s.cfg c0 (slotWrites s.cfg 1 2 4 c1) (Nat.zero_le 8)
    rw [List.drop_zero, List.drop_zero] at htake
    rw [htake]
    simpa using slotWrites_mask hstride 0 0 2 c0
  case filter0 =>
    rw [take_drop_slot0 _ _ _ (by omega)]
    simpa using slotWrites_filter hexide 0 0 2 c0 i hi (by omega)
  case mask1 =>
    rw [show 12 = 12 + 0 from rfl, drop_slot0, List.drop_zero]
    exact slotWrites_mask hstride 1 2 4 c1
  case filter1 =>
    rw [show 16 + 4 * i = 12 + (4 + 4 * i) by omega, drop_slot0]
    exact slotWrites_filter hexide 1 2 4 c1 i hi (by omega)

/-! ### The addresses of a program -/

/-- The addresses of a slot's writes, which its chain has no part in (R181). -/
def slotAddrs (c : Cfg) (slot first count : Nat) : List Byte :=
  (tupleWrites (maskBase c slot) zeroTuple ++
    (List.range count).flatMap fun i => tupleWrites (filterAddr c (first + i)) zeroTuple).map RegWrite.addr

/-- A tuple's addresses come from its base alone, so zeros stand for the chain's tuples. -/
theorem slotWrites_addr (c : Cfg) (slot first count : Nat) (ch : FilterChain) :
    (slotWrites c slot first count ch).map RegWrite.addr = slotAddrs c slot first count := by
  rw [slotWrites, slotAddrs, List.map_append, List.map_append, List.map_flatMap, List.map_flatMap]
  rfl

/-- Under the parameters of R2 no register is written twice (R182). -/
theorem programWrites_addr_nodup (p : Option (FilterChain × FilterChain)) :
    ((programWrites Cfg.spec p).map RegWrite.addr).Nodup := by
  cases p with
  | none => decide
  | some p =>
    rw [programWrites_some cfgSpec_sourceFixed, List.map_append, slotWrites_addr, slotWrites_addr]
    decide

/-- Settles O45: a program is the writes of a placement, whose number and addresses no chain's contents change. -/
theorem programWriteCounts : Obligations.ProgramWriteCounts := by
  intro cs s t hc h
  refine ⟨fun hstatus => ?error, fun ws ls hr => ?program⟩
  case error =>
    rcases exec_cases h with ⟨r, -, rfl⟩ | ⟨e, -, rfl⟩
    · exact absurd rfl hstatus
    · rfl
  case program =>
    obtain ⟨cs', p, hi, hp, rfl, -⟩ := program_result h hr
    cases hi
    have hspec : s.cfg = Cfg.spec := hc
    have hlen := programWrites_length cfgSpec_sourceFixed p
    have hnone := eq_none_iff_of_placeChains hp
    rw [hspec]
    refine ⟨fun hnil => ?_, fun hne => ?_, programWrites_addr_nodup p⟩
    · rw [hlen, hnone.mpr hnil]; rfl
    · rw [hlen, if_pos (Option.isSome_iff_ne_none.mpr (mt hnone.mp hne))]

end Sys2Proof.Machine

/-! The errors of each operation (`60_exceptions.md` R213): which error an operation's outcome can be, and from it which
statuses its response can have. -/

namespace Sys2Proof.Machine

/-! ### The error of an outcome -/

theorem frameMake_error {c : Cfg} {r : RawFrame} {e : Err} (h : frameMake c r = .error e) : e = .invalidFrame := by
  by_cases ha : Acceptable c r
  · rw [frameMake_of_acceptable ha] at h; cases h
  · rw [frameMake_of_not_acceptable ha] at h; cases h; rfl

theorem frameEncode_error {c : Cfg} {r : RawFrame} {e : Err} (h : frameEncode c r = .error e) : e = .invalidFrame := by
  by_cases ha : Acceptable c r
  · rw [frameEncode_of_acceptable ha] at h; cases h
  · rw [frameEncode_of_not_acceptable ha] at h; cases h; rfl

theorem frameDecode_error {c : Cfg} {l : Line} {e : Err} (h : frameDecode c l = .error e) : e = .notAFrame := by
  rcases frameDecode_cases c l with ⟨_, _, _, -, ho⟩ | ⟨ho, -⟩
  · rw [ho] at h; cases h
  · rw [ho] at h; cases h; rfl

theorem baudCompute_error {c : Cfg} {b : BitVec 32} {e : Err} (h : baudCompute c b = .error e) : e = .badBaud := by
  by_cases hb : b = 0#32
  · rw [hb, baudCompute_zero] at h; cases h; rfl
  · cases hp : presetIndex c b with
    | some i => rw [baudCompute_of_preset hb hp] at h; cases h
    | none => rw [baudCompute_of_no_preset hb hp] at h; cases h

/-- FILTER_PROGRAM's errors are those of the placement (R185). -/
theorem filterProgram_error {c : Cfg} {cs : List FilterChain} {e : Err} (h : filterProgram c cs = .error e) :
    e = .tooManyFilterChains ∨ e = .filterChainTooLong := by
  rcases filterProgram_cases c cs with ⟨e', hp, ho⟩ | ⟨p, -, ho⟩
  · rw [ho] at h; cases h; exact placeChains_error hp
  · rw [ho] at h; cases h

/-! ### The status of a response -/

section
variable {i : Instr} {s t : State} (h : exec i s = .next t)
include h

theorem exec_status_of_ok {r : Result} (ho : outcomeOf s.cfg i = .ok r) : t.rsp.status = 0x00#8 := by
  rw [exec_eq, ho] at h; cases h; rfl

theorem exec_status_of_error {e : Err} (ho : outcomeOf s.cfg i = .error e) : t.rsp.status = e.code := by
  rw [exec_eq, ho] at h; cases h; rfl

/-- An instruction with one error answers OK or that error's code. -/
theorem exec_status_of_only_error {e : Err} (hall : ∀ e', outcomeOf s.cfg i = .error e' → e' = e) :
    t.rsp.status = 0x00#8 ∨ t.rsp.status = e.code := by
  cases ho : outcomeOf s.cfg i with
  | ok r => exact .inl (exec_status_of_ok h ho)
  | error e' => exact .inr (hall e' ho ▸ exec_status_of_error h ho)

end

theorem exec_filterProgram_status {cs : List FilterChain} {s t : State} (h : exec (.filterProgram cs) s = .next t) :
    t.rsp.status = 0x00#8 ∨ t.rsp.status = 0x02#8 ∨ t.rsp.status = 0x03#8 := by
  cases ho : filterProgram s.cfg cs with
  | ok r => exact .inl (exec_status_of_ok h ho)
  | error e =>
    have hstatus := exec_status_of_error h ho
    rcases filterProgram_error ho with rfl | rfl
    · exact .inr (.inl hstatus)
    · exact .inr (.inr hstatus)

/-- Settles O18: each clause is a row of R213, an operation's status being OK or the code of an error of its outcome. -/
theorem errorsOfEachOperation : Obligations.ErrorsOfEachOperation := by
  intro s t r l b p cs w op o
  refine ⟨?frameMake, ?frameEncode, ?frameDecode, ?baudCompute, ?maskEncode, ?filterValueEncode, ?filterProgram,
    ?regWriteFormat, ?illegal⟩ <;> intro h
  case frameMake => exact exec_status_of_only_error h fun _ => frameMake_error
  case frameEncode => exact exec_status_of_only_error h fun _ => frameEncode_error
  case frameDecode => exact exec_status_of_only_error h fun _ => frameDecode_error
  case baudCompute => exact exec_status_of_only_error h fun _ => baudCompute_error
  case maskEncode | filterValueEncode | regWriteFormat => exact exec_status_of_ok h rfl
  case filterProgram => exact exec_filterProgram_status h
  case illegal => exact exec_status_of_error h rfl

end Sys2Proof.Machine

/-! Reset and hazards (`70_reset_and_hazards.md`): what a due reset leaves of a state, and that a preset's answer rests on the
preset tables alone. -/

namespace Sys2Proof.Machine

/-! ### Reset -/

theorem hostStep_reset {s : State} {moves : List HostMove} (h : s.host = .reset :: moves) :
    s.hostStep = .next (State.resetBlock { s with host := moves }) := by
  rw [State.hostStep, h]

@[simp] theorem resetBlock_readTarget (s : State) (a : Byte) : s.resetBlock.readTarget a = s.readTarget a := rfl

/-- Settles O53: a due reset is the host's move at once, standing request or not, and it sets REQ and RSP alone. -/
theorem resetLosesTheRequestAndSparesTheTarget : Obligations.ResetLosesTheRequestAndSparesTheTarget := by
  intro s moves hhost
  have hdue : s.host.head? = some .reset := by rw [hhost]; rfl
  refine ⟨_, (step_of_resetDue hdue).trans (hostStep_reset hhost), ?_⟩
  exact ⟨rfl, rfl, rfl, rfl, rfl, rfl, resetBlock_readTarget { s with host := moves }⟩

/-! ### The oscillator -/

/-- The rate of an entry of the preset table is found, at the latest at that entry. -/
theorem exists_presetIndex_rate (c : Cfg) (i : Fin 9) : ∃ j, presetIndex c c.presetRates[i] = some j := by
  cases h : presetIndex c c.presetRates[i] with
  | some j => exact ⟨j, rfl⟩
  | none => simpa using List.find?_eq_none.mp h i (List.mem_finRange i)

/-- The search for a preset does not read `OSC_HZ`. -/
theorem presetIndex_with_oscHz (c : Cfg) (hz b : BitVec 32) : presetIndex { c with oscHz := hz } b = presetIndex c b := rfl

/-- The response to a rate that has a preset is that preset's line. -/
theorem exec_baudCompute_preset {b : BitVec 32} {s t : State} {j : Fin 9} (hb : b ≠ 0#32) (hj : presetIndex s.cfg b = some j)
    (h : exec (.baudCompute b) s = .next t) : t.rsp = ⟨true, 0x00#8, some (.baud (.preset j [0x53#8, s.cfg.presetChar[j]]))⟩ := by
  rw [(answers_iff _ _ _ _).mp (answers_of_ok (i := .baudCompute b) (baudCompute_of_preset hb hj))] at h
  cases h
  exact respond_rsp s _ _

/-- Settles O37: both states find the same preset, whose line is made of `PRESET_CHAR` alone (R248). -/
theorem presetAnswerIgnoresTheOscillator : Obligations.PresetAnswerIgnoresTheOscillator := by
  intro i s s' t t' hz hcfg hb h h'
  obtain ⟨j, hj⟩ := exists_presetIndex_rate s.cfg i
  have hj' : presetIndex s'.cfg s.cfg.presetRates[i] = some j := by rw [hcfg, presetIndex_with_oscHz, hj]
  have hchar : s'.cfg.presetChar = s.cfg.presetChar := by rw [hcfg]
  have hrsp := exec_baudCompute_preset hb hj h
  have hrsp' := exec_baudCompute_preset hb hj' h'
  rw [hchar] at hrsp'
  exact ⟨hrsp.trans hrsp'.symm, j, congrArg Rsp.result hrsp⟩

end Sys2Proof.Machine
